-- ==== Sys2Proof/Word.lean ====
section
/-! DEFINITION. The widths of the block's values (00_scope.md R4, R6): every value is a bit vector of a stated width. -/

namespace Sys2Proof

/-- One input byte and one buffer cell, BYTE_W = 8 (R4). -/
abbrev Byte := BitVec 8

/-- The accumulator, a table entry and a 16-bit field, CRC_W = TABLE_W = I16_W = 16 (R4). -/
abbrev Half := BitVec 16

/-- A 32-bit field and the data of a response, I32_W = 32 (R4). -/
abbrev Word := BitVec 32

/-- A command word `cmd[39:0]`, CMD_W = 40 (R4, R35). -/
abbrev CmdWord := BitVec 40

end Sys2Proof
end

