-- ==== Sys2Proof/Syntax.lean ====
section
/-! DEFINITION. The commands of the block (30_encoding.md R37, R38) as one inductive type, and the lines of the
assembler text (R43, R44). A command's operands have exactly the widths its shape gives them, so that no term of
`Instr` holds a bit the shape does not use. -/

namespace Sys2Proof

/-- The 11 commands, one constructor per row of spec/opcode_table.json (R38). -/
inductive Instr where
  /-- CRC_INIT, shape N (R55). -/
  | crcInit
  /-- CRC_BYTE, shape B: `data[7:0]` (R56). -/
  | crcByte (b : Byte)
  /-- CRC_BUF, shape N (R57). -/
  | crcBuf
  /-- CRC_RD, shape N (R58). -/
  | crcRd
  /-- BUF_CLR, shape N (R75). -/
  | bufClr
  /-- BUF_WR, shape AB: `off` and `data[7:0]` (R76). -/
  | bufWr (off : BitVec 4) (b : Byte)
  /-- BUF_RD, shape A: `off` (R77). -/
  | bufRd (off : BitVec 4)
  /-- PUT_I32, shape AW: `off` and `data[31:0]` (R65). -/
  | putI32 (off : BitVec 4) (v : Word)
  /-- PUT_I16, shape AH: `off` and `data[15:0]` (R66). -/
  | putI16 (off : BitVec 4) (v : Half)
  /-- GET_I32, shape A: `off` (R67). -/
  | getI32 (off : BitVec 4)
  /-- GET_I16, shape A: `off` (R68). -/
  | getI16 (off : BitVec 4)
deriving DecidableEq, Repr

/-- The mnemonic of a command (R38, R43). -/
def Instr.mnemonic : Instr → String
  | .crcInit => "CRC_INIT"
  | .crcByte _ => "CRC_BYTE"
  | .crcBuf => "CRC_BUF"
  | .crcRd => "CRC_RD"
  | .bufClr => "BUF_CLR"
  | .bufWr _ _ => "BUF_WR"
  | .bufRd _ => "BUF_RD"
  | .putI32 _ _ => "PUT_I32"
  | .putI16 _ _ => "PUT_I16"
  | .getI32 _ => "GET_I32"
  | .getI16 _ => "GET_I16"

/-- A command or pseudo-command of the assembler, its numbers not yet checked against the widths of the command
(R43, R44). Only the values of PUT_I32 and PUT_I16 may be negative. -/
inductive AsmLine where
  | crcInit
  | crcByte (b : Nat)
  | crcBuf
  | crcRd
  | bufClr
  | bufWr (off b : Nat)
  | bufRd (off : Nat)
  | putI32 (off : Nat) (v : Int)
  | putI16 (off : Nat) (v : Int)
  | getI32 (off : Nat)
  | getI16 (off : Nat)
  /-- `CKSUM b0, ..., b(n-1)`, any number of bytes (R44). -/
  | cksum (bs : List Nat)
  /-- `LOAD8 b0, ..., b7` (R44). -/
  | load8 (bs : List Nat)
deriving DecidableEq, Repr

/-- What one line of an assembler text is (R43). -/
inductive AsmItem where
  /-- Nothing but white space and a comment. -/
  | blank
  /-- A command or pseudo-command. -/
  | line (l : AsmLine)
  /-- `-> (status, data)`: the response of the command before it. -/
  | expects (status data : Nat)
deriving DecidableEq, Repr

end Sys2Proof
end

