-- ==== Sys2Proof/Decode.lean ====
section
/-! DEFINITION. The decoder and the encoder of command words (30_encoding.md R35 to R42, R46). -/

namespace Sys2Proof

/-- `op`, bits 39:36 (R35). -/
def opField (w : CmdWord) : BitVec 4 := w.extractLsb' 36 4

/-- `off`, bits 35:32 (R35). -/
def offField (w : CmdWord) : BitVec 4 := w.extractLsb' 32 4

/-- `data`, bits 31:0 (R35). -/
def dataField (w : CmdWord) : Word := w.extractLsb' 0 32

/-- The word with the given fields, `op ++ off ++ data` (R35). -/
def packFields (op off : BitVec 4) (data : Word) : CmdWord := op ++ off ++ data

/-- Why a word is no command. Both raise the same fault, IllegalCommand, and nothing records which (R100, R101; log
entry 13). -/
inductive IllegalReason where
  /-- `op` is 0x0 or 0xC to 0xF (R41). -/
  | reservedOpcode
  /-- `op` is a command's and a bit its shape does not use is 1 (R40). -/
  | strayBits
deriving DecidableEq, Repr

/-- What a word decodes to: one command with its operands, or illegal (R39). -/
inductive Decoded where
  | command (i : Instr)
  | illegal (why : IllegalReason)
deriving DecidableEq, Repr

/-- Shape N: `off` and `data` must be 0 (R37). -/
def shapeN (off : BitVec 4) (data : Word) (i : Instr) : Decoded :=
  if off = 0#4 ∧ data = 0#32 then .command i else .illegal .strayBits

/-- Shape B: `off` and `data[31:8]` must be 0 (R37). -/
def shapeB (off : BitVec 4) (data : Word) (i : Byte → Instr) : Decoded :=
  if off = 0#4 ∧ data.extractLsb' 8 24 = 0#24 then .command (i (data.extractLsb' 0 8)) else .illegal .strayBits

/-- Shape A: `data` must be 0 (R37). -/
def shapeA (off : BitVec 4) (data : Word) (i : BitVec 4 → Instr) : Decoded :=
  if data = 0#32 then .command (i off) else .illegal .strayBits

/-- Shape AB: `data[31:8]` must be 0 (R37). -/
def shapeAB (off : BitVec 4) (data : Word) (i : BitVec 4 → Byte → Instr) : Decoded :=
  if data.extractLsb' 8 24 = 0#24 then .command (i off (data.extractLsb' 0 8)) else .illegal .strayBits

/-- Shape AH: `data[31:16]` must be 0 (R37). -/
def shapeAH (off : BitVec 4) (data : Word) (i : BitVec 4 → Half → Instr) : Decoded :=
  if data.extractLsb' 16 16 = 0#16 then .command (i off (data.extractLsb' 0 16)) else .illegal .strayBits

/-- Shape AW: every bit is in use (R37). -/
def shapeAW (off : BitVec 4) (data : Word) (i : BitVec 4 → Word → Instr) : Decoded :=
  .command (i off data)

/-- The command or the reason a word with these fields has none (R38). Any value of `off` is well formed for the shapes
that take one; whether the address is in range is decided when the command runs (R37). -/
def decodeFields (op off : BitVec 4) (data : Word) : Decoded :=
  match op with
  | 0x1#4 => shapeN off data .crcInit
  | 0x2#4 => shapeB off data .crcByte
  | 0x3#4 => shapeN off data .crcBuf
  | 0x4#4 => shapeN off data .crcRd
  | 0x5#4 => shapeN off data .bufClr
  | 0x6#4 => shapeAB off data .bufWr
  | 0x7#4 => shapeA off data .bufRd
  | 0x8#4 => shapeAW off data .putI32
  | 0x9#4 => shapeAH off data .putI16
  | 0xA#4 => shapeA off data .getI32
  | 0xB#4 => shapeA off data .getI16
  | _ => .illegal .reservedOpcode

/-- The decoder: total, and a function of the word alone (R39). -/
def decode (w : CmdWord) : Decoded :=
  decodeFields (opField w) (offField w) (dataField w)

/-- The command word of a command: its opcode (R38), its operands in their fields, every unused bit 0 (R37). -/
def encode : Instr → CmdWord
  | .crcInit => packFields 0x1#4 0#4 0#32
  | .crcByte b => packFields 0x2#4 0#4 (b.setWidth 32)
  | .crcBuf => packFields 0x3#4 0#4 0#32
  | .crcRd => packFields 0x4#4 0#4 0#32
  | .bufClr => packFields 0x5#4 0#4 0#32
  | .bufWr off b => packFields 0x6#4 off (b.setWidth 32)
  | .bufRd off => packFields 0x7#4 off 0#32
  | .putI32 off v => packFields 0x8#4 off v
  | .putI16 off v => packFields 0x9#4 off (v.setWidth 32)
  | .getI32 off => packFields 0xA#4 off 0#32
  | .getI16 off => packFields 0xB#4 off 0#32

/-- The command word the opcode table's number `w` of `nbits` bits stands for: bit 0 is the word's bit 0, and bits the
number does not give are 0 (R35, R46; log entry 12). -/
def tableWord (nbits w : Nat) : CmdWord := BitVec.ofNat 40 (w % 2 ^ nbits)

/-- The command the decoder reads from that word. -/
def decodeTableWord (nbits w : Nat) : Option Instr :=
  match decode (tableWord nbits w) with
  | .command i => some i
  | .illegal _ => none

end Sys2Proof
end

