-- ==== Sys2Proof/Machine/State.lean ====
section
/-! DEFINITION. The state of the machine: the 82 bits of 10_state.md R10, the parameter the step reads (R14), and the
block's two ports (30_encoding.md R36). -/

namespace Sys2Proof.Machine

/-- The contents of BUF as cells in canonical form: addresses strictly rising, all below 8, no cell holding 0x00, which
is what an unlisted address reads as (10_state.md R12, R19; log entry 6). -/
abbrev Memory := List Host.Cell

/-- One event of the sequence the host applies to the block (70_reset_and_hazards.md R115, R123). -/
inductive Event where
  /-- The host issues a command word, any 40 bits (30_encoding.md R35). -/
  | command (w : CmdWord)
  /-- The reset event (R115). -/
  | reset
deriving DecidableEq, Repr

/-- A response `rsp[33:0]` (30_encoding.md R36). -/
structure Response where
  /-- `rsp[33:32]`: 0 OK, 1 IllegalCommand, 2 OffsetRange, 3 never produced. -/
  status : BitVec 2
  /-- `rsp[31:0]`. -/
  data : Word
deriving DecidableEq, Repr

/-- The block's two faults (60_exceptions.md R100). A fault of the block is a response and a latched code, after which
the block goes on (R106, R107): a next state of the machine, never a stop. -/
inductive FaultCause where
  /-- A word that is no command (R101). -/
  | illegalCommand
  /-- A well-formed command whose access runs past the buffer (R102). -/
  | offsetRange
deriving DecidableEq, Repr

/-- The machine's state. -/
structure State where
  /-- The accumulator (10_state.md R11). -/
  crc : Half
  /-- The payload buffer, the address space BUF (R12). -/
  buf : Memory
  /-- The record of the first fault since reset (R13). -/
  flt : BitVec 2
  /-- The parameters of this instance, which nothing writes: TABLE (R14; log entry 1). -/
  cfg : Config
  /-- What the host has issued and the block has not yet accepted, next first (log entry 2). -/
  events : List Event
  /-- The responses given so far, oldest first (R122; log entry 3). No command reads them (R17). -/
  responses : List Response
deriving DecidableEq, Repr

/-- The machine after reset (10_state.md R19), with the default table (log entry 1), nothing issued (log entry 2) and
nothing answered (log entry 3). -/
def State.reset : State where
  crc := 0x0000#16
  buf := []
  flt := 0#2
  cfg := Config.default
  events := []
  responses := []

/-- The stops by fault: there is none. The block never halts, no command can hang, and after either of its own faults it
accepts the next command (70_reset_and_hazards.md R121, R122; 60_exceptions.md R107), so a step always answers a next
state (log entry 7). Nobody raises a member of this type; that is safe, since nothing the hardware does is left out. -/
inductive Fault where
deriving DecidableEq, Repr

/-- The refusals. -/
inductive Refusal where
  /-- Raised by the arm of `exec` of a command that has no meaning in this model: no arm does. Safe: the model would stop
  where the hardware goes on. -/
  | notModelled (mnemonic : String)
deriving DecidableEq, Repr

end Sys2Proof.Machine
end

