-- ==== Sys2Proof/Machine/Flags.lean ====
section
/-! DEFINITION. The status codes of a response and the one flag `flt` (10_state.md R13; 30_encoding.md R36;
60_exceptions.md R100, R106). -/

namespace Sys2Proof.Machine

/-- Status OK, code 0 (R36). -/
def statusOk : BitVec 2 := 0#2

/-- The code of a fault, in the response's status and in `flt` (R100). -/
def faultCode : FaultCause → BitVec 2
  | .illegalCommand => 1#2
  | .offsetRange => 2#2

/-- `flt` after a fault: the code if `flt` was 0, else unchanged, so that it holds the first fault since reset
(R13, R106). -/
def latchFault (flt : BitVec 2) (cause : FaultCause) : BitVec 2 :=
  if flt = 0#2 then faultCode cause else flt

end Sys2Proof.Machine
end

