-- ==== Sys2Proof/Machine/Operands.lean ====
section
/-! DEFINITION. The operand forms: the one addressing mode and its range check (20_memory.md R23), the split of a value
into bytes and back, least significant byte first (R21, R22), and the extensions of a response's data (30_encoding.md
R42). -/

namespace Sys2Proof.Machine

/-- The effective address: the `off` field itself, unsigned (41_frame_codec.md, its opening; 30_encoding.md R42). -/
def effectiveAddress (off : BitVec 4) : Nat := off.toNat

/-- The range check: an access of `n` bytes at `off` is legal exactly when `off + n <= 8` (R23). -/
def inRange (off : BitVec 4) (n : Nat) : Bool := decide (effectiveAddress off + n ≤ 8)

/-- The two bytes of a 16-bit value in address order (R21). -/
def bytesOfHalf (v : Half) : List Byte := [v.extractLsb' 0 8, v.extractLsb' 8 8]

/-- The four bytes of a 32-bit value in address order (R21). -/
def bytesOfWord (v : Word) : List Byte :=
  [v.extractLsb' 0 8, v.extractLsb' 8 8, v.extractLsb' 16 8, v.extractLsb' 24 8]

/-- The 16-bit value of two bytes in address order (R22). -/
def halfOfBytes (b0 b1 : Byte) : Half := b1 ++ b0

/-- The 32-bit value of four bytes in address order (R22). -/
def wordOfBytes (b0 b1 b2 b3 : Byte) : Word := b3 ++ b2 ++ b1 ++ b0

/-- `zext_32` of a byte (R6; 42_buffer_port.md R77). -/
def zextByte (b : Byte) : Word := b.setWidth 32

/-- `zext_32` of a 16-bit value (R6; 40_crc.md R58). -/
def zextHalf (h : Half) : Word := h.setWidth 32

/-- `sext_32` of a 16-bit value (R6; 41_frame_codec.md R68). -/
def sextHalf (h : Half) : Word := h.signExtend 32

/-- `v[15:8]` of a 16-bit value (R6). -/
def highByte (v : Half) : Byte := v.extractLsb' 8 8

/-- `v[7:0]` of a 16-bit value (R6). -/
def lowByte (v : Half) : Byte := v.extractLsb' 0 8

end Sys2Proof.Machine
end

