-- ==== Sys2Proof/Machine/Ops.lean ====
section
/-! DEFINITION. The shared operations over memory and registers, taking a fault, and reset. -/

namespace Sys2Proof.Machine

/-- What an address that nothing has written since reset reads as: 0x00 (10_state.md R19). -/
def unwrittenByte : Byte := 0x00#8

/-- `buf[a]` (20_memory.md R20). -/
def Memory.read : Memory → Nat → Byte
  | [], _ => unwrittenByte
  | (k, v) :: m, a => if k = a then v else Memory.read m a

/-- The memory with no cell at `a`. -/
def Memory.erase : Memory → Nat → Memory
  | [], _ => []
  | (k, v) :: m, a => if k = a then Memory.erase m a else (k, v) :: Memory.erase m a

/-- The memory with a cell for `a` put before the first cell of a higher address. -/
def Memory.insert : Memory → Nat → Byte → Memory
  | [], a, b => [(a, b)]
  | (k, v) :: m, a, b => if a < k then (a, b) :: (k, v) :: m else (k, v) :: Memory.insert m a b

/-- `buf[a] <- b` (20_memory.md R20), in canonical form: writing what an unlisted address reads as leaves no cell. -/
def Memory.write (m : Memory) (a : Nat) (b : Byte) : Memory :=
  if b = unwrittenByte then Memory.erase m a else Memory.insert (Memory.erase m a) a b

/-- The bytes written to `a`, `a + 1`, ... in that order: MemWrite once its value is split (20_memory.md R21). -/
def Memory.writeBytes : Memory → Nat → List Byte → Memory
  | m, _, [] => m
  | m, a, b :: bs => Memory.writeBytes (Memory.write m a b) (a + 1) bs

/-- `MemRead(a, 2)` (20_memory.md R22). -/
def Memory.readHalf (m : Memory) (a : Nat) : Half :=
  halfOfBytes (Memory.read m a) (Memory.read m (a + 1))

/-- `MemRead(a, 4)` (20_memory.md R22). -/
def Memory.readWord (m : Memory) (a : Nat) : Word :=
  wordOfBytes (Memory.read m a) (Memory.read m (a + 1)) (Memory.read m (a + 2)) (Memory.read m (a + 3))

/-- The eight bytes `buf[0]` to `buf[7]` in index order (20_memory.md R25). -/
def Memory.payload (m : Memory) : List Byte :=
  [Memory.read m 0, Memory.read m 1, Memory.read m 2, Memory.read m 3,
   Memory.read m 4, Memory.read m 5, Memory.read m 6, Memory.read m 7]

/-- Canonical form above a bound: addresses strictly rising from `lo`, all below 8, no cell holding the unwritten
byte. -/
def Memory.wfFrom : Nat → Memory → Bool
  | _, [] => true
  | lo, (k, v) :: m => decide (lo ≤ k) && decide (k < 8) && decide (v ≠ unwrittenByte) && Memory.wfFrom (k + 1) m

/-- Canonical form (log entry 6). -/
def Memory.wf (m : Memory) : Bool := Memory.wfFrom 0 m

/-- `TABLE[i]`: every index is legal (20_memory.md R34). -/
def tableRead (table : Table) (i : Byte) : Half := table[i.toNat]'(i.isLt)

/-- `crc <- v` (00_scope.md R7). -/
def setCrc (v : Half) (s : State) : State := { s with crc := v }

/-- The buffer replaced as a whole. -/
def setBuf (m : Memory) (s : State) : State := { s with buf := m }

/-- `rsp <- (status, data)`: the one response of the command (30_encoding.md R36). -/
def respond (status : BitVec 2) (data : Word) (s : State) : State :=
  { s with responses := s.responses ++ [⟨status, data⟩] }

/-- `rsp <- (OK, data)`. -/
def respondOk (data : Word) (s : State) : State := respond statusOk data s

/-- `raise F`: what a fault does, in full (60_exceptions.md R106). It leaves `crc` and `buf` as they were, answers the
code with data 0, and latches the code if `flt` is 0. There is no return from a fault and nothing to return to (R107):
the block takes the next command as usual. -/
def raiseFault (cause : FaultCause) (s : State) : State :=
  respond (faultCode cause) 0#32 { s with flt := latchFault s.flt cause }

/-- A command that accesses `n` bytes at `off`: in range it takes its effect, given the effective address; out of range
it raises OffsetRange before any cell is read or written (20_memory.md R23; 60_exceptions.md R102). -/
def withAccess (off : BitVec 4) (n : Nat) (s : State) (effect : Nat → State) :
    Host.Outcome State Fault Refusal :=
  .next (if inRange off n then effect (effectiveAddress off) else raiseFault .offsetRange s)

/-- The effect of the reset event (70_reset_and_hazards.md R115): the three items of state, and nothing else (log entry
15). -/
def applyReset (s : State) : State :=
  { s with crc := 0x0000#16, buf := [], flt := 0#2 }

end Sys2Proof.Machine
end

