-- ==== Sys2Proof/Machine/BufferPort.lean ====
section
/-! DEFINITION. The buffer port family (42_buffer_port.md): BUF_CLR, BUF_WR, BUF_RD. -/

namespace Sys2Proof.Machine

/-- BUF_CLR (R75): all eight bytes 0x00, which is the memory that lists nothing. -/
def execBufClr (s : State) : Host.Outcome State Fault Refusal :=
  .next (respondOk 0#32 (setBuf [] s))

/-- BUF_WR (R76). -/
def execBufWr (off : BitVec 4) (b : Byte) (s : State) : Host.Outcome State Fault Refusal :=
  withAccess off 1 s (fun a => respondOk 0#32 (setBuf (Memory.writeBytes s.buf a [b]) s))

/-- BUF_RD (R77). -/
def execBufRd (off : BitVec 4) (s : State) : Host.Outcome State Fault Refusal :=
  withAccess off 1 s (fun a => respondOk (zextByte (Memory.read s.buf a)) s)

end Sys2Proof.Machine
end

