-- ==== Sys2Proof/Machine/Checksum.lean ====
section
/-! DEFINITION. The checksum family (40_crc.md): the functions `crc_step` and `checksum` for any TABLE, and the commands
CRC_INIT, CRC_BYTE, CRC_BUF, CRC_RD. -/

namespace Sys2Proof.Machine

/-- `crc_step(r, b)` (R50). -/
def crcStep (table : Table) (r : Half) (b : Byte) : Half :=
  tableRead table (b ^^^ highByte r) ^^^ (lowByte r ++ 0x00#8)

/-- The fold of `crc_step` over bytes from a given value (R51, R60 (d)). -/
def crcFold (table : Table) (r : Half) (bytes : List Byte) : Half :=
  bytes.foldl (crcStep table) r

/-- `checksum(bytes)` (R51): the fold from CRC_INIT_VALUE, no final exclusive-or. -/
def checksum (table : Table) (bytes : List Byte) : Half := crcFold table 0x0000#16 bytes

/-- One shift of the bit-serial form: `(t[15] == 1) ? ((t << 1) ^ 0x1021) : (t << 1)`, 16 bits (R54, R62). -/
def serialShift (t : Half) : Half :=
  if t.getMsbD 0 then (t <<< 1) ^^^ 0x1021#16 else t <<< 1

/-- Eight shifts of the bit-serial form (R54, R62). -/
def serialShift8 (t : Half) : Half :=
  serialShift (serialShift (serialShift (serialShift (serialShift (serialShift (serialShift (serialShift t)))))))

/-- The bit-serial step, which R62 says equals `crc_step` when TABLE is TABLE_CCITT, and only then. -/
def crcStepSerial (r : Half) (b : Byte) : Half := serialShift8 (r ^^^ (b ++ 0x00#8))

/-- CRC_INIT (R55). -/
def execCrcInit (s : State) : Host.Outcome State Fault Refusal :=
  .next (respondOk 0#32 (setCrc 0x0000#16 s))

/-- CRC_BYTE (R56). -/
def execCrcByte (b : Byte) (s : State) : Host.Outcome State Fault Refusal :=
  .next (respondOk 0#32 (setCrc (crcStep s.cfg.table s.crc b) s))

/-- CRC_BUF (R57): the checksum of the buffer from 0, whatever `crc` was. -/
def execCrcBuf (s : State) : Host.Outcome State Fault Refusal :=
  .next (respondOk 0#32 (setCrc (checksum s.cfg.table (Memory.payload s.buf)) s))

/-- CRC_RD (R58). -/
def execCrcRd (s : State) : Host.Outcome State Fault Refusal :=
  .next (respondOk (zextHalf s.crc) s)

end Sys2Proof.Machine
end

