-- ==== Sys2Proof/Machine/FrameCodec.lean ====
section
/-! DEFINITION. The frame codec family (41_frame_codec.md): PUT_I32, PUT_I16, GET_I32, GET_I16. -/

namespace Sys2Proof.Machine

/-- PUT_I32 (R65). -/
def execPutI32 (off : BitVec 4) (v : Word) (s : State) : Host.Outcome State Fault Refusal :=
  withAccess off 4 s (fun a => respondOk 0#32 (setBuf (Memory.writeBytes s.buf a (bytesOfWord v)) s))

/-- PUT_I16 (R66). -/
def execPutI16 (off : BitVec 4) (v : Half) (s : State) : Host.Outcome State Fault Refusal :=
  withAccess off 2 s (fun a => respondOk 0#32 (setBuf (Memory.writeBytes s.buf a (bytesOfHalf v)) s))

/-- GET_I32 (R67). -/
def execGetI32 (off : BitVec 4) (s : State) : Host.Outcome State Fault Refusal :=
  withAccess off 4 s (fun a => respondOk (Memory.readWord s.buf a) s)

/-- GET_I16 (R68). -/
def execGetI16 (off : BitVec 4) (s : State) : Host.Outcome State Fault Refusal :=
  withAccess off 2 s (fun a => respondOk (sextHalf (Memory.readHalf s.buf a)) s)

end Sys2Proof.Machine
end

