-- ==== Sys2Proof/Machine/Dispatch.lean ====
section
/-! DEFINITION. The dispatch of a decoded command to its meaning, one arm per constructor of `Instr` (30_encoding.md
R38). -/

namespace Sys2Proof.Machine

def exec (i : Instr) (s : State) : Host.Outcome State Fault Refusal :=
  match i with
  -- the checksum family (40_crc.md)
  | .crcInit => Sys2Proof.Machine.execCrcInit s
  | .crcByte b => Sys2Proof.Machine.execCrcByte b s
  | .crcBuf => Sys2Proof.Machine.execCrcBuf s
  | .crcRd => Sys2Proof.Machine.execCrcRd s
  -- the buffer port family (42_buffer_port.md)
  | .bufClr => Sys2Proof.Machine.execBufClr s
  | .bufWr off b => Sys2Proof.Machine.execBufWr off b s
  | .bufRd off => Sys2Proof.Machine.execBufRd off s
  -- the frame codec family (41_frame_codec.md)
  | .putI32 off v => Sys2Proof.Machine.execPutI32 off v s
  | .putI16 off v => Sys2Proof.Machine.execPutI16 off v s
  | .getI32 off => Sys2Proof.Machine.execGetI32 off s
  | .getI16 off => Sys2Proof.Machine.execGetI16 off s

end Sys2Proof.Machine
end

