-- ==== Sys2Proof/Machine/Accept.lean ====
section
/-! DEFINITION. What the block does with one event of the host's (70_reset_and_hazards.md R115, R117, R123), and what it
does while there is none. -/

namespace Sys2Proof.Machine

/-- A decoded word performed: a command by its own rule, an illegal word by raising IllegalCommand and nothing else
(30_encoding.md R39 to R41; 60_exceptions.md R101, R105). -/
def performDecoded (d : Decoded) (s : State) : Host.Outcome State Fault Refusal :=
  match d with
  | .command i => exec i s
  | .illegal _ => .next (raiseFault .illegalCommand s)

/-- A command word performed. -/
def performWord (w : CmdWord) (s : State) : Host.Outcome State Fault Refusal :=
  performDecoded (decode w) s

/-- An event accepted: a command is performed, reset has its effect and gives no response (R115; 30_encoding.md R36). -/
def acceptEvent (e : Event) (s : State) : Host.Outcome State Fault Refusal :=
  match e with
  | .command w => performWord w s
  | .reset => .next (applyReset s)

/-- The block with nothing issued to it: nothing changes (R122; log entry 4). -/
def idle (s : State) : Host.Outcome State Fault Refusal := .next s

/-- The state with its first event taken off the list (log entry 2). -/
def dropEvent (s : State) : State := { s with events := s.events.tail }

/-- The state with a command word issued before everything the host has issued (log entry 5). -/
def issueFirst (w : CmdWord) (s : State) : State := { s with events := .command w :: s.events }

end Sys2Proof.Machine
end

