-- ==== Sys2Proof/Machine/Step.lean ====
section
/-! DEFINITION. One step of the machine: the block accepts the next event of the host's and performs it whole
(20_memory.md R30), or idles if there is none. -/

namespace Sys2Proof.Machine

/-- One step (log entries 2 and 4). -/
def step (s : State) : Host.Outcome State Fault Refusal :=
  match s.events with
  | [] => idle s
  | e :: _ => acceptEvent e (dropEvent s)

/-- The state with the opcode table's word `w` of `nbits` bits issued as the host's next event, so that the very next
step performs it (log entries 5 and 12). -/
def State.withFetchWord (s : State) (nbits w : Nat) : State := issueFirst (tableWord nbits w) s

end Sys2Proof.Machine
end

