-- ==== Sys2Proof/Machine/FixedPoint.lean ====
section
/-! DEFINITION. The fixed-point formats of 43_payload_formats.md R80 to R82, and the host's rounding (R92). Coordinates
are exact rationals (log entry 10). -/

namespace Sys2Proof.Machine

/-- The open parameter ROUND of the host: all the spec requires of it (R92). -/
structure Rounding where
  /-- The integer a number is rounded to. -/
  toInt : ℚ → ℤ
  /-- `ROUND(x) = x` when `x` is an integer. -/
  fixes : ∀ n : ℤ, toInt (n : ℚ) = n
  /-- `|ROUND(x) - x| <= 1/2`. -/
  near : ∀ x : ℚ, |(toInt x : ℚ) - x| ≤ 1 / 2

/-- The field of an X or Y coordinate in millimetres, `round(value * 100)` (R80). -/
def fieldXY (rounding : Rounding) (value : ℚ) : ℤ := rounding.toInt (value * 100)

/-- The coordinate an X or Y field stands for (R80). -/
def coordXY (f : ℤ) : ℚ := (f : ℚ) / 100

/-- The field of a nozzle height in millimetres, `round(-z * 1000)` (R81). -/
def fieldZ (rounding : Rounding) (z : ℚ) : ℤ := rounding.toInt (-z * 1000)

/-- The height a Z field stands for (R81). -/
def coordZ (f : ℤ) : ℚ := -((f : ℚ) / 1000)

/-- The field of a nozzle angle in degrees, `round(c * 10)` (R82). -/
def fieldC (rounding : Rounding) (c : ℚ) : ℤ := rounding.toInt (c * 10)

/-- The angle a rotation field stands for (R82). -/
def coordC (f : ℤ) : ℚ := (f : ℚ) / 10

/-- The heights the document allows, -12.0 to 0.0 (R81, R93). -/
def legalZ (z : ℚ) : Prop := -12 ≤ z ∧ z ≤ 0

/-- The angles the document allows, -180.0 to 180.0 (R82, R93). -/
def legalC (c : ℚ) : Prop := -180 ≤ c ∧ c ≤ 180

/-- The field fits 16 bits, two's complement (R93). -/
def fitsHalf (f : ℤ) : Prop := -32768 ≤ f ∧ f ≤ 32767

/-- The field fits 32 bits, two's complement (R80). -/
def fitsWord (f : ℤ) : Prop := -2147483648 ≤ f ∧ f ≤ 2147483647

/-- The pattern a 32-bit field is put with (30_encoding.md R42). For a field that does not fit 32 bits the spec does not
say what is put (91_not_in_source.md N16): the definition then takes it modulo 2^32 (DESIGN CHOICE, log entry 18). -/
def patternWord (f : ℤ) : Word := BitVec.ofInt 32 f

/-- The pattern a 16-bit field is put with (30_encoding.md R42). For a field that does not fit 16 bits R93 says that
what is put is not stated, and that it cannot happen after clamping: the definition then takes it modulo 2^16 (DESIGN
CHOICE, log entry 18). -/
def patternHalf (f : ℤ) : Half := BitVec.ofInt 16 f

/-- The integer a host reads from the response of a GET command, signed (41_frame_codec.md R67, R68). -/
def signedData (data : Word) : ℤ := data.toInt

end Sys2Proof.Machine
end

