-- ==== Sys2Proof/WellFormed.lean ====
section
/-! DEFINITION. What is well formed. Every term of `Instr` is a well-formed command, because its fields have the widths
of R37. What can be ill formed is a command word, judged here by the match and mask columns of the opcode map (R38),
and a line of assembler text, judged by the ranges of R43. -/

namespace Sys2Proof

/-- One row of the opcode map (R38): a word is this command exactly when `word & mask = pattern`. -/
structure OpcodeRow where
  mnemonic : String
  pattern : CmdWord
  mask : CmdWord
deriving DecidableEq, Repr

/-- The 11 rows of R38, with its columns match (here `pattern`) and mask. -/
def opcodeRows : List OpcodeRow :=
  [⟨"CRC_INIT", 0x1000000000#40, 0xFFFFFFFFFF#40⟩,
   ⟨"CRC_BYTE", 0x2000000000#40, 0xFFFFFFFF00#40⟩,
   ⟨"CRC_BUF", 0x3000000000#40, 0xFFFFFFFFFF#40⟩,
   ⟨"CRC_RD", 0x4000000000#40, 0xFFFFFFFFFF#40⟩,
   ⟨"BUF_CLR", 0x5000000000#40, 0xFFFFFFFFFF#40⟩,
   ⟨"BUF_WR", 0x6000000000#40, 0xF0FFFFFF00#40⟩,
   ⟨"BUF_RD", 0x7000000000#40, 0xF0FFFFFFFF#40⟩,
   ⟨"PUT_I32", 0x8000000000#40, 0xF000000000#40⟩,
   ⟨"PUT_I16", 0x9000000000#40, 0xF0FFFF0000#40⟩,
   ⟨"GET_I32", 0xA000000000#40, 0xF0FFFFFFFF#40⟩,
   ⟨"GET_I16", 0xB000000000#40, 0xF0FFFFFFFF#40⟩]

/-- The word is a word of this row (R38). -/
def OpcodeRow.matchesWord (row : OpcodeRow) (w : CmdWord) : Bool :=
  w &&& row.mask == row.pattern

/-- The row of a command (R38). -/
def Instr.row : Instr → OpcodeRow
  | .crcInit => ⟨"CRC_INIT", 0x1000000000#40, 0xFFFFFFFFFF#40⟩
  | .crcByte _ => ⟨"CRC_BYTE", 0x2000000000#40, 0xFFFFFFFF00#40⟩
  | .crcBuf => ⟨"CRC_BUF", 0x3000000000#40, 0xFFFFFFFFFF#40⟩
  | .crcRd => ⟨"CRC_RD", 0x4000000000#40, 0xFFFFFFFFFF#40⟩
  | .bufClr => ⟨"BUF_CLR", 0x5000000000#40, 0xFFFFFFFFFF#40⟩
  | .bufWr _ _ => ⟨"BUF_WR", 0x6000000000#40, 0xF0FFFFFF00#40⟩
  | .bufRd _ => ⟨"BUF_RD", 0x7000000000#40, 0xF0FFFFFFFF#40⟩
  | .putI32 _ _ => ⟨"PUT_I32", 0x8000000000#40, 0xF000000000#40⟩
  | .putI16 _ _ => ⟨"PUT_I16", 0x9000000000#40, 0xF0FFFF0000#40⟩
  | .getI32 _ => ⟨"GET_I32", 0xA000000000#40, 0xF0FFFFFFFF#40⟩
  | .getI16 _ => ⟨"GET_I16", 0xB000000000#40, 0xF0FFFFFFFF#40⟩

/-- The word is a word of some command: its opcode is not reserved (R41) and every bit its shape does not use is 0
(R37, R40). -/
def wellFormedWord (w : CmdWord) : Bool :=
  opcodeRows.any (fun row => row.matchesWord w)

/-- A byte operand of the assembler, 0 to 255 (R43). -/
def byteFits (b : Nat) : Bool := decide (b ≤ 255)

/-- An `off` operand of the assembler, 0 to 15 (R43). -/
def offFits (off : Nat) : Bool := decide (off ≤ 15)

/-- A value of PUT_I16, -32768 to 65535 (R43). -/
def halfFits (v : Int) : Bool := decide (-32768 ≤ v) && decide (v ≤ 65535)

/-- A value of PUT_I32, -2^31 to 2^32 - 1 (R43). -/
def wordFits (v : Int) : Bool := decide (-2147483648 ≤ v) && decide (v ≤ 4294967295)

/-- Every number of the line fits its command (R43), and LOAD8 has its eight bytes (R44). -/
def AsmLine.fits : AsmLine → Bool
  | .crcInit => true
  | .crcByte b => byteFits b
  | .crcBuf => true
  | .crcRd => true
  | .bufClr => true
  | .bufWr off b => offFits off && byteFits b
  | .bufRd off => offFits off
  | .putI32 off v => offFits off && wordFits v
  | .putI16 off v => offFits off && halfFits v
  | .getI32 off => offFits off
  | .getI16 off => offFits off
  | .cksum bs => bs.all byteFits
  | .load8 bs => bs.length == 8 && bs.all byteFits

end Sys2Proof
end

