-- ==== Sys2Proof/Machine/Assembler.lean ====
section
/-! DEFINITION. The assembler text (30_encoding.md R43) and the two pseudo-commands (R44). Details of the text the rule
leaves open are in log entry 14. -/

namespace Sys2Proof.Machine

/-- The command a value within its range stands for: a negative value as its two's complement pattern (R42, R43). -/
def asmWord (v : Int) : Word := BitVec.ofInt 32 v

/-- As `asmWord`, for PUT_I16. -/
def asmHalf (v : Int) : Half := BitVec.ofInt 16 v

/-- A byte operand. -/
def asmByte (b : Nat) : Byte := BitVec.ofNat 8 b

/-- An `off` operand. -/
def asmOff (off : Nat) : BitVec 4 := BitVec.ofNat 4 off

/-- `CKSUM b0, ..., b(n-1)`: CRC_INIT, a CRC_BYTE for each byte in order, CRC_RD (R44). -/
def expandCksum (bs : List Byte) : List Instr :=
  .crcInit :: (bs.map .crcByte ++ [.crcRd])

/-- `LOAD8 b0, ..., b7`: a BUF_WR for each byte, at addresses from `off` up (R44). -/
def expandLoad : BitVec 4 → List Byte → List Instr
  | _, [] => []
  | off, b :: bs => .bufWr off b :: expandLoad (off + 1#4) bs

/-- The commands a line whose numbers fit stands for (R43, R44). -/
def expandLine : AsmLine → List Instr
  | .crcInit => [.crcInit]
  | .crcByte b => [.crcByte (asmByte b)]
  | .crcBuf => [.crcBuf]
  | .crcRd => [.crcRd]
  | .bufClr => [.bufClr]
  | .bufWr off b => [.bufWr (asmOff off) (asmByte b)]
  | .bufRd off => [.bufRd (asmOff off)]
  | .putI32 off v => [.putI32 (asmOff off) (asmWord v)]
  | .putI16 off v => [.putI16 (asmOff off) (asmHalf v)]
  | .getI32 off => [.getI32 (asmOff off)]
  | .getI16 off => [.getI16 (asmOff off)]
  | .cksum bs => expandCksum (bs.map asmByte)
  | .load8 bs => expandLoad 0#4 (bs.map asmByte)

/-- A line assembled: an error if a number does not fit, never a truncation (R43). -/
def assemble (l : AsmLine) : Option (List Instr) :=
  if l.fits then some (expandLine l) else none

/-- White space inside a line. -/
def isBlankChar (c : Char) : Bool := c == ' ' || c == '\t'

/-- The characters without white space at either end. -/
def trimChars (cs : List Char) : List Char :=
  ((cs.dropWhile isBlankChar).reverse.dropWhile isBlankChar).reverse

/-- The pieces between commas. -/
def splitCommas : List Char → List (List Char)
  | [] => [[]]
  | c :: cs =>
    if c = ',' then [] :: splitCommas cs
    else
      match splitCommas cs with
      | [] => [[c]]
      | p :: ps => (c :: p) :: ps

/-- The digits in order of their values: the first ten are the decimal ones, all sixteen the hexadecimal ones (R43). -/
def digitChars : List Char := "0123456789ABCDEF".toList

/-- The value of a digit of a base: its place among the digits of that base. A hexadecimal digit may be a small letter
(log entry 14). -/
def digitValue (base : Nat) (c : Char) : Option Nat := (digitChars.take base).idxOf? c.toUpper

/-- The number that digits of a base write, the first the most significant; no digits are no number. -/
def parseDigits (base : Nat) : List Char → Option Nat
  | [] => none
  | ds => ds.foldlM (fun high d => (digitValue base d).map (high * base + ·)) 0

/-- A number without a sign: decimal, or hexadecimal after `0x` (R43). -/
def parseNat : List Char → Option Nat
  | '0' :: 'x' :: ds => parseDigits 16 ds
  | ds => parseDigits 10 ds

/-- A number that may be decimal with a leading `-` (R43). -/
def parseInt : List Char → Option Int
  | '-' :: ds => (parseDigits 10 ds).map (fun n => -(n : Int))
  | ds => (parseNat ds).map (fun n => (n : Int))

/-- Every piece read as a number without a sign. -/
def parseNats : List (List Char) → Option (List Nat)
  | [] => some []
  | p :: ps =>
    match parseNat p, parseNats ps with
    | some n, some ns => some (n :: ns)
    | _, _ => none

/-- A line with no operand. -/
def lineN (l : AsmLine) : List (List Char) → Option AsmLine
  | [] => some l
  | _ => none

/-- A line with one operand without a sign. -/
def line1 (l : Nat → AsmLine) : List (List Char) → Option AsmLine
  | [p] => (parseNat p).map l
  | _ => none

/-- A line with two operands without a sign. -/
def line2 (l : Nat → Nat → AsmLine) : List (List Char) → Option AsmLine
  | [p, q] =>
    match parseNat p, parseNat q with
    | some m, some n => some (l m n)
    | _, _ => none
  | _ => none

/-- A line with an `off` and a value that may be negative. -/
def lineValue (l : Nat → Int → AsmLine) : List (List Char) → Option AsmLine
  | [p, q] =>
    match parseNat p, parseInt q with
    | some m, some v => some (l m v)
    | _, _ => none
  | _ => none

/-- A command from its mnemonic and its operands (R43, R44). -/
def parseCommand (mnemonic : List Char) (operands : List (List Char)) : Option AsmLine :=
  if mnemonic = "CRC_INIT".toList then lineN .crcInit operands
  else if mnemonic = "CRC_BYTE".toList then line1 .crcByte operands
  else if mnemonic = "CRC_BUF".toList then lineN .crcBuf operands
  else if mnemonic = "CRC_RD".toList then lineN .crcRd operands
  else if mnemonic = "BUF_CLR".toList then lineN .bufClr operands
  else if mnemonic = "BUF_WR".toList then line2 .bufWr operands
  else if mnemonic = "BUF_RD".toList then line1 .bufRd operands
  else if mnemonic = "PUT_I32".toList then lineValue .putI32 operands
  else if mnemonic = "PUT_I16".toList then lineValue .putI16 operands
  else if mnemonic = "GET_I32".toList then line1 .getI32 operands
  else if mnemonic = "GET_I16".toList then line1 .getI16 operands
  else if mnemonic = "CKSUM".toList then (parseNats operands).map .cksum
  else if mnemonic = "LOAD8".toList then (parseNats operands).map .load8
  else none

/-- The response stated by `(status, data)`, the part of a line after `->` (R43). The rule gives ranges for the numbers
of commands only: those of a stated response may be of any size, also ones no response has (DESIGN CHOICE, log entry
14). -/
def parseExpected (cs : List Char) : Option AsmItem :=
  match cs with
  | '(' :: rest =>
    match rest.reverse with
    | ')' :: inside =>
      match (splitCommas inside.reverse).map trimChars with
      | [p, q] =>
        match parseNat p, parseNat q with
        | some st, some d => some (.expects st d)
        | _, _ => none
      | _ => none
    | _ => none
  | _ => none

/-- The operands after a mnemonic: none, or pieces separated by commas. -/
def operandPieces (cs : List Char) : List (List Char) :=
  if cs = [] then [] else (splitCommas cs).map trimChars

/-- One line of assembler text (R43); `none` is an assembler error. -/
def parseLine (text : String) : Option AsmItem :=
  match trimChars (text.toList.takeWhile (fun c => c != ';')) with
  | [] => some .blank
  | '-' :: '>' :: rest => parseExpected (trimChars rest)
  | cs =>
    (parseCommand (cs.takeWhile (fun c => !isBlankChar c))
      (operandPieces (trimChars (cs.dropWhile (fun c => !isBlankChar c))))).map .line

/-- The command words of one line of text: none for a blank line or a stated response, an error for a line that is none
of these or whose numbers do not fit (R43). -/
def assembleText (text : String) : Option (List CmdWord) :=
  match parseLine text with
  | some .blank => some []
  | some (.expects _ _) => some []
  | some (.line l) => (assemble l).map (fun is => is.map encode)
  | none => none

end Sys2Proof.Machine
end

