-- ==== Sys2Proof/Machine/Run.lean ====
section
/-! DEFINITION. Sequences of commands, as the laws over sequences speak of them (40_crc.md R59; 41_frame_codec.md R69 to
R71; 70_reset_and_hazards.md R118, R119). -/

namespace Sys2Proof.Machine

/-- The commands performed in order, each complete before the next (20_memory.md R30). -/
def execAll : List Instr → State → Host.Outcome State Fault Refusal
  | [], s => .next s
  | i :: is, s =>
    match exec i s with
    | .next t => execAll is t
    | .fault f => .fault f
    | .refused r => .refused r

/-- The bytes a decoded word folds into the accumulator: that of a CRC_BYTE, none otherwise (R59). -/
def foldedBytes : Decoded → List Byte
  | .command (.crcByte b) => [b]
  | _ => []

/-- The decoded word is one the streaming law lets stand in a stream: not CRC_INIT and not CRC_BUF. Faulting words are
among those it allows (R59). -/
def keepsStream : Decoded → Bool
  | .command .crcInit => false
  | .command .crcBuf => false
  | _ => true

end Sys2Proof.Machine
end

