-- ==== Sys2Proof/Machine/Payload.lean ====
section
/-! DEFINITION. The payload layouts of 43_payload_formats.md R83 to R90 and R94, the commands that build them, and where
the checksum goes (R91, R95). How a host uses the block; the block itself accepts any field at any legal offset
(20_memory.md R28). -/

namespace Sys2Proof.Machine

/-- A nozzle, 1 to 4 (R83; 00_scope.md R8). -/
inductive Nozzle where
  | n1
  | n2
  | n3
  | n4
deriving DecidableEq, Repr

/-- The 1-based nozzle id as a payload byte (R83). -/
def nozzleId : Nozzle → Byte
  | .n1 => 1#8
  | .n2 => 2#8
  | .n3 => 3#8
  | .n4 => 4#8

/-- The offset of a nozzle's byte in a status payload, `nozzle_id - 1` (R90). -/
def statusOffset : Nozzle → BitVec 4
  | .n1 => 0#4
  | .n2 => 1#4
  | .n3 => 2#4
  | .n4 => 3#4

/-- The fixed marker in byte 2 of a Move Z and a Move Rotation payload (R83). -/
def payloadMarker : Byte := 0x32#8

/-- The payloads a host sends, with their fields as the patterns that are put (R84 to R89). -/
inductive Payload where
  /-- R84. -/
  | home
  /-- R85: the X and the Y field of R80. -/
  | moveXY (x y : Word)
  /-- R86: the Z field of R81. -/
  | moveZ (field : Half) (id : Nozzle)
  /-- R87: the rotation field of R82. -/
  | moveRotation (field : Half) (id : Nozzle)
  /-- R88. -/
  | actuateAir (value : Byte) (id : Nozzle)
  /-- R89. -/
  | lightsDown (value : Byte)
  /-- R89. -/
  | lightsUp (value : Byte)
deriving DecidableEq, Repr

/-- The eight bytes of a payload, `buf[0]` first (R84 to R89); bytes the layout does not name are 0 (R94). -/
def payloadBytes : Payload → List Byte
  | .home => [1, 0, 0, 0, 0, 0, 0, 0]
  | .moveXY x y => bytesOfWord x ++ bytesOfWord y
  | .moveZ f id => bytesOfHalf f ++ [payloadMarker, nozzleId id, 0, 0, 0, 0]
  | .moveRotation f id => bytesOfHalf f ++ [payloadMarker, nozzleId id, 0, 0, 0, 0]
  | .actuateAir v id => [v, nozzleId id, 0, 0, 0, 0, 0, 0]
  | .lightsDown v => [v, 0, 0, 0, 0, 0, 0, 0]
  | .lightsUp v => [0, 0, 0, 0, v, 0, 0, 0]

/-- The PUT and BUF_WR commands of a layout (R84 to R89). -/
def payloadPuts : Payload → List Instr
  | .home => [.putI32 0#4 1#32]
  | .moveXY x y => [.putI32 0#4 x, .putI32 4#4 y]
  | .moveZ f id => [.putI16 0#4 f, .bufWr 2#4 payloadMarker, .bufWr 3#4 (nozzleId id)]
  | .moveRotation f id => [.putI16 0#4 f, .bufWr 2#4 payloadMarker, .bufWr 3#4 (nozzleId id)]
  | .actuateAir v id => [.bufWr 0#4 v, .bufWr 1#4 (nozzleId id)]
  | .lightsDown v => [.bufWr 0#4 v]
  | .lightsUp v => [.bufWr 4#4 v]

/-- The commands each layout says builds it: BUF_CLR first, but for Move XY, whose fields cover all eight bytes (R84 to
R89). -/
def payloadBuild : Payload → List Instr
  | .moveXY x y => payloadPuts (.moveXY x y)
  | p => .bufClr :: payloadPuts p

/-- BUF_RD 0 to BUF_RD 7 (R95). -/
def readAllBytes : List Instr :=
  [.bufRd 0#4, .bufRd 1#4, .bufRd 2#4, .bufRd 3#4, .bufRd 4#4, .bufRd 5#4, .bufRd 6#4, .bufRd 7#4]

/-- The recipe of a full transmit payload: BUF_CLR, the layout's commands, CRC_BUF, the eight bytes, the checksum
(R95). -/
def transmit (p : Payload) : List Instr :=
  .bufClr :: (payloadPuts p ++ (.crcBuf :: (readAllBytes ++ [.crcRd])))

/-- A received payload placed in the buffer and one nozzle's value read from it (R90). -/
def readStatus (received : List Byte) (id : Nozzle) : List Instr :=
  expandLoad 0#4 received ++ [.bufRd (statusOffset id)]

/-- The bytes a host writes to the wire for a built payload: the eight bytes in order, then the one checksum byte its
CKSUM_WIRE_SEL takes from the 16 bits (R91; log entry 11). -/
def wireBytes (cksumWireSel : Half → Byte) (s : State) : List Byte :=
  Memory.payload s.buf ++ [cksumWireSel s.crc]

/-- Whether a host accepts a received payload whose checksum is in `crc`. By its VERIFY_RX the host compares the received
byte with the computed checksum or does not (R91; log entry 11). Which byte of the 16 bits it compares, and what it does
on a mismatch, the spec leaves to the host (92_eei_decisions.md D21): here it compares the byte its CKSUM_WIRE_SEL takes
and rejects on a mismatch (DESIGN CHOICE, log entry 19). -/
def acceptsReceived (verifyRx : Bool) (cksumWireSel : Half → Byte) (received : Byte) (s : State) : Bool :=
  !verifyRx || cksumWireSel s.crc == received

end Sys2Proof.Machine
end

