-- ==== Sys2Proof/Safety.lean ====
section
/-! DEFINITION. What the claims call a good state, a good response and a fault-free run. -/

namespace Sys2Proof.Machine

/-- A response the block may give: status 3 is never produced, and a faulting command's data is 0 (30_encoding.md
R36). -/
def Response.legal (r : Response) : Bool :=
  decide (r.status ≠ 3#2) && (decide (r.status = statusOk) || decide (r.data = 0#32))

/-- The invariant of the machine: the buffer is in canonical form and has no address but 0 to 7 (20_memory.md R20),
`flt` is not 3 (10_state.md R13), every response given is legal (30_encoding.md R36). -/
def State.Inv (s : State) : Prop :=
  Memory.wf s.buf = true ∧ s.flt ≠ 3#2 ∧ ∀ r ∈ s.responses, r.legal = true

/-- The premise a claim about a fault-free run takes: no fault is recorded at its end (60_exceptions.md R107). -/
def State.noFaultRecorded (s : State) : Bool := decide (s.flt = 0#2)

/-- The status of the first fault among responses, 0 if none faulted. -/
def firstFault : List Response → BitVec 2
  | [] => 0#2
  | r :: rs => if r.status = 0#2 then firstFault rs else r.status

/-- The access a command makes at its `off` operand: the operand and the width in bytes (20_memory.md R25). The commands
of shape N and B take no `off`. -/
def accessOf : Instr → Option (BitVec 4 × Nat)
  | .bufWr off _ => some (off, 1)
  | .bufRd off => some (off, 1)
  | .putI32 off _ => some (off, 4)
  | .putI16 off _ => some (off, 2)
  | .getI32 off => some (off, 4)
  | .getI16 off => some (off, 2)
  | .crcInit => none
  | .crcByte _ => none
  | .crcBuf => none
  | .crcRd => none
  | .bufClr => none

/-- The command's access, if it makes one, is within the buffer (20_memory.md R23). -/
def accessLegal (i : Instr) : Bool :=
  match accessOf i with
  | some (off, n) => decide (off.toNat + n ≤ 8)
  | none => true

/-- The data of a command's OK response: the value read for CRC_RD, BUF_RD, GET_I32 and GET_I16, 0 for every other
command (30_encoding.md R36). -/
def valueRead (i : Instr) (s : State) : Word :=
  match i with
  | .crcRd => s.crc.setWidth 32
  | .bufRd off => (Memory.read s.buf off.toNat).setWidth 32
  | .getI32 off =>
    Memory.read s.buf (off.toNat + 3) ++ Memory.read s.buf (off.toNat + 2) ++
      Memory.read s.buf (off.toNat + 1) ++ Memory.read s.buf off.toNat
  | .getI16 off => (Memory.read s.buf (off.toNat + 1) ++ Memory.read s.buf off.toNat).signExtend 32
  | .crcInit => 0#32
  | .crcByte _ => 0#32
  | .crcBuf => 0#32
  | .bufClr => 0#32
  | .bufWr _ _ => 0#32
  | .putI32 _ _ => 0#32
  | .putI16 _ _ => 0#32

/-- Column `crc`, entry w, of the access table (10_state.md R18). -/
def writesCrc : Instr → Bool
  | .crcInit => true
  | .crcByte _ => true
  | .crcBuf => true
  | .crcRd => false
  | .bufClr => false
  | .bufWr _ _ => false
  | .bufRd _ => false
  | .putI32 _ _ => false
  | .putI16 _ _ => false
  | .getI32 _ => false
  | .getI16 _ => false

/-- Column `crc`, entry r, of the access table (10_state.md R18). -/
def readsCrc : Instr → Bool
  | .crcByte _ => true
  | .crcRd => true
  | .crcInit => false
  | .crcBuf => false
  | .bufClr => false
  | .bufWr _ _ => false
  | .bufRd _ => false
  | .putI32 _ _ => false
  | .putI16 _ _ => false
  | .getI32 _ => false
  | .getI16 _ => false

/-- Column TABLE of the access table (10_state.md R18). -/
def readsTable : Instr → Bool
  | .crcByte _ => true
  | .crcBuf => true
  | .crcInit => false
  | .crcRd => false
  | .bufClr => false
  | .bufWr _ _ => false
  | .bufRd _ => false
  | .putI32 _ _ => false
  | .putI16 _ _ => false
  | .getI32 _ => false
  | .getI16 _ => false

/-- Column `buf`, entry r, of the access table (10_state.md R18), cell by cell: the command reads `buf[k]`. -/
def readsCell (i : Instr) (k : Nat) : Bool :=
  match i with
  | .crcBuf => decide (k < 8)
  | .bufRd off => decide (k = off.toNat)
  | .getI32 off => decide (off.toNat ≤ k ∧ k < off.toNat + 4)
  | .getI16 off => decide (off.toNat ≤ k ∧ k < off.toNat + 2)
  | .crcInit => false
  | .crcByte _ => false
  | .crcRd => false
  | .bufClr => false
  | .bufWr _ _ => false
  | .putI32 _ _ => false
  | .putI16 _ _ => false

/-- Column `buf`, entry w, of the access table (10_state.md R18), cell by cell: the command, when it does not fault,
writes `buf[k]`. -/
def writesCell (i : Instr) (k : Nat) : Bool :=
  match i with
  | .bufClr => decide (k < 8)
  | .bufWr off _ => decide (k = off.toNat)
  | .putI32 off _ => decide (off.toNat ≤ k ∧ k < off.toNat + 4)
  | .putI16 off _ => decide (off.toNat ≤ k ∧ k < off.toNat + 2)
  | .crcInit => false
  | .crcByte _ => false
  | .crcBuf => false
  | .crcRd => false
  | .bufRd _ => false
  | .getI32 _ => false
  | .getI16 _ => false

end Sys2Proof.Machine
end

