-- ==== Sys2Proof/Certificates/Slice0/Obligations.lean ====
section
/-! DEFINITION. The statements about the model, each from the spec's numbered rules. -/

namespace Sys2Proof.Claims

open Sys2Proof.Machine

/-- The state after a command answered (OK, data) and changed nothing else. -/
def answered (s : State) (data : Word) : State :=
  { s with responses := s.responses ++ [⟨0#2, data⟩] }

/-- The state after a command faulted with this code (60_exceptions.md R106, written out). -/
def faulted (s : State) (code : BitVec 2) : State :=
  { s with flt := if s.flt = 0#2 then code else s.flt, responses := s.responses ++ [⟨code, 0#32⟩] }

/-- The state with another accumulator and nothing else changed. -/
def withCrc (s : State) (v : Half) : State := { s with crc := v }

/-- The state with another buffer and nothing else changed. -/
def withBuf (s : State) (m : Memory) : State := { s with buf := m }

/-- The state once the host's next event has been taken. -/
def taken (s : State) (rest : List Event) : State := { s with events := rest }

/-- One line of the table of R45: the text assembles to the word, the word is the command's and has the fields. -/
def workedRow (text : String) (w : CmdWord) (i : Instr) (op off : BitVec 4) (data : Word) : Prop :=
  assembleText text = some [w] ∧ decode w = .command i ∧ encode i = w ∧
    opField w = op ∧ offField w = off ∧ dataField w = data

/-- The data of the last response, if it was an OK response. -/
def lastOk (s : State) (data : Word) : Prop := s.responses.getLast? = some ⟨0#2, data⟩

/-- `crc_step` with the accumulator held in 32 bits and `r << 8` not truncated to 16 (R53, the reading it examines). -/
def wideStep (table : Table) (r : BitVec 32) (b : Byte) : BitVec 32 :=
  (tableRead table (b ^^^ r.extractLsb' 8 8)).setWidth 32 ^^^ (r <<< 8)

end Sys2Proof.Claims

open Sys2Proof Sys2Proof.Machine Sys2Proof.Claims

/-! Encoding (30_encoding.md) -/

/-- R45, every line (the spec marks R45 as derived from R35, R37 and R38). -/
def Obligations.WorkedEncodingsOfEveryCommand : Prop :=
  workedRow "CRC_INIT" 0x1000000000#40 .crcInit 0x1#4 0#4 0x00000000#32 ∧
  workedRow "CRC_BYTE 0x31" 0x2000000031#40 (.crcByte 0x31#8) 0x2#4 0#4 0x00000031#32 ∧
  workedRow "CRC_BUF" 0x3000000000#40 .crcBuf 0x3#4 0#4 0x00000000#32 ∧
  workedRow "CRC_RD" 0x4000000000#40 .crcRd 0x4#4 0#4 0x00000000#32 ∧
  workedRow "BUF_CLR" 0x5000000000#40 .bufClr 0x5#4 0#4 0x00000000#32 ∧
  workedRow "BUF_WR 2, 0x32" 0x6200000032#40 (.bufWr 2#4 0x32#8) 0x6#4 2#4 0x00000032#32 ∧
  workedRow "BUF_RD 0" 0x7000000000#40 (.bufRd 0#4) 0x7#4 0#4 0x00000000#32 ∧
  workedRow "PUT_I32 4, 500" 0x84000001F4#40 (.putI32 4#4 0x000001F4#32) 0x8#4 4#4 0x000001F4#32 ∧
  workedRow "PUT_I16 0, -1800" 0x900000F8F8#40 (.putI16 0#4 0xF8F8#16) 0x9#4 0#4 0x0000F8F8#32 ∧
  workedRow "GET_I32 4" 0xA400000000#40 (.getI32 4#4) 0xA#4 4#4 0x00000000#32 ∧
  workedRow "GET_I16 0" 0xB000000000#40 (.getI16 0#4) 0xB#4 0#4 0x00000000#32

/-- R35, R37, R38: no operand bit is dropped, for every command and every operand. -/
def Obligations.DecodeOfEncodeIsTheCommand : Prop :=
  ∀ i : Instr, decode (encode i) = .command i

/-- R38, R40: a word that is a command is that command's one word. -/
def Obligations.EncodeOfDecodeIsTheWord : Prop :=
  ∀ (w : CmdWord) (i : Instr), decode w = .command i → encode i = w

/-- R38: a word is the command of a row exactly when it matches the row; no word matches two rows; a word of a reserved
opcode is illegal. -/
def Obligations.WordIsOfARowExactlyWhenItMatches : Prop :=
  (∀ (w : CmdWord) (row : OpcodeRow), row ∈ opcodeRows →
    ((∃ i, decode w = .command i ∧ i.row = row ∧ i.mnemonic = row.mnemonic) ↔ w &&& row.mask = row.pattern)) ∧
  (∀ (w : CmdWord) (row row' : OpcodeRow), row ∈ opcodeRows → row' ∈ opcodeRows →
    w &&& row.mask = row.pattern → w &&& row'.mask = row'.pattern → row = row') ∧
  (∀ w : CmdWord, opField w = 0x0#4 ∨ 0xC#4 ≤ opField w → ∃ why, decode w = .illegal why) ∧
  (∀ w : CmdWord, wellFormedWord w = true ↔ ∃ i, decode w = .command i)

/-- R40: a word of a command's opcode with a stray bit raises IllegalCommand and does nothing else; the rule's four
examples. -/
def Obligations.StrayBitRaisesIllegalCommand : Prop :=
  (∀ (s : State) (w : CmdWord) (rest : List Event) (row : OpcodeRow), s.events = .command w :: rest →
    row ∈ opcodeRows → opField w = opField row.pattern → w &&& row.mask ≠ row.pattern →
    step s = .next (faulted (taken s rest) 1#2)) ∧
  decode 0x1000000001#40 = .illegal .strayBits ∧ decode 0x2100000031#40 = .illegal .strayBits ∧
  decode 0x2000000131#40 = .illegal .strayBits ∧ decode 0x9000010384#40 = .illegal .strayBits

/-- R41: a word of a reserved opcode, whatever its other bits, raises IllegalCommand and does nothing else; in
particular the word of zeros. -/
def Obligations.ReservedOpcodeRaisesIllegalCommand : Prop :=
  (∀ (s : State) (w : CmdWord) (rest : List Event), s.events = .command w :: rest →
    (opField w = 0x0#4 ∨ opField w = 0xC#4 ∨ opField w = 0xD#4 ∨ opField w = 0xE#4 ∨ opField w = 0xF#4) →
    step s = .next (faulted (taken s rest) 1#2)) ∧
  (∀ (s : State) (rest : List Event), s.events = .command 0x0000000000#40 :: rest →
    step s = .next (faulted (taken s rest) 1#2))

/-- R42, R43, R44: a line of any command or pseudo-command assembles exactly when its numbers fit (and LOAD8 has its
eight bytes), and then each number is the operand, a negative one as its two's complement pattern at the command's
width. -/
def Obligations.AssemblerNeverTruncates : Prop :=
  (assemble .crcInit = some [.crcInit] ∧ assemble .crcBuf = some [.crcBuf] ∧ assemble .crcRd = some [.crcRd] ∧
    assemble .bufClr = some [.bufClr]) ∧
  (∀ b : Nat, b ≤ 255 → ∃ x : Byte, assemble (.crcByte b) = some [.crcByte x] ∧ x.toNat = b) ∧
  (∀ b : Nat, 255 < b → assemble (.crcByte b) = none) ∧
  (∀ off b : Nat, off ≤ 15 → b ≤ 255 →
    ∃ (a : BitVec 4) (x : Byte), assemble (.bufWr off b) = some [.bufWr a x] ∧ a.toNat = off ∧ x.toNat = b) ∧
  (∀ off b : Nat, 15 < off ∨ 255 < b → assemble (.bufWr off b) = none) ∧
  (∀ off : Nat, off ≤ 15 → ∃ a : BitVec 4, a.toNat = off ∧ assemble (.bufRd off) = some [.bufRd a] ∧
    assemble (.getI32 off) = some [.getI32 a] ∧ assemble (.getI16 off) = some [.getI16 a]) ∧
  (∀ off : Nat, 15 < off →
    assemble (.bufRd off) = none ∧ assemble (.getI32 off) = none ∧ assemble (.getI16 off) = none) ∧
  (∀ (off : Nat) (v : Int), off ≤ 15 → -32768 ≤ v → v ≤ 65535 →
    ∃ (a : BitVec 4) (h : Half), assemble (.putI16 off v) = some [.putI16 a h] ∧ a.toNat = off ∧
      (v < 0 → h.toInt = v) ∧ (0 ≤ v → (h.toNat : Int) = v)) ∧
  (∀ (off : Nat) (v : Int), 15 < off ∨ v < -32768 ∨ 65535 < v → assemble (.putI16 off v) = none) ∧
  (∀ (off : Nat) (v : Int), off ≤ 15 → -2147483648 ≤ v → v ≤ 4294967295 →
    ∃ (a : BitVec 4) (x : Word), assemble (.putI32 off v) = some [.putI32 a x] ∧ a.toNat = off ∧
      (v < 0 → x.toInt = v) ∧ (0 ≤ v → (x.toNat : Int) = v)) ∧
  (∀ (off : Nat) (v : Int), 15 < off ∨ v < -2147483648 ∨ 4294967295 < v → assemble (.putI32 off v) = none) ∧
  (∀ bs : List Nat, (∀ b ∈ bs, b ≤ 255) →
    ∃ xs : List Byte, assemble (.cksum bs) = some (expandCksum xs) ∧ xs.map BitVec.toNat = bs) ∧
  (∀ bs : List Nat, (∃ b ∈ bs, 255 < b) → assemble (.cksum bs) = none) ∧
  (∀ bs : List Nat, bs.length = 8 → (∀ b ∈ bs, b ≤ 255) →
    ∃ xs : List Byte, assemble (.load8 bs) = some (expandLoad 0#4 xs) ∧ xs.map BitVec.toNat = bs) ∧
  (∀ bs : List Nat, bs.length ≠ 8 ∨ (∃ b ∈ bs, 255 < b) → assemble (.load8 bs) = none)

/-- R44: CKSUM responds, last, with the checksum of its bytes, for any number of bytes; LOAD8 places its eight bytes in
BUF. -/
def Obligations.PseudoCommandsDoWhatTheyStandFor : Prop :=
  (∀ (bs : List Byte) (s : State),
    expandCksum bs = [.crcInit] ++ bs.map .crcByte ++ [.crcRd] ∧
    ∃ t, execAll (expandCksum bs) s = .next t ∧ lastOk t ((checksum s.cfg.table bs).setWidth 32)) ∧
  (∀ (b0 b1 b2 b3 b4 b5 b6 b7 : Byte) (s : State),
    expandLoad 0#4 [b0, b1, b2, b3, b4, b5, b6, b7] =
      [.bufWr 0#4 b0, .bufWr 1#4 b1, .bufWr 2#4 b2, .bufWr 3#4 b3,
       .bufWr 4#4 b4, .bufWr 5#4 b5, .bufWr 6#4 b6, .bufWr 7#4 b7] ∧
    ∃ t, execAll (expandLoad 0#4 [b0, b1, b2, b3, b4, b5, b6, b7]) s = .next t ∧
      Memory.payload t.buf = [b0, b1, b2, b3, b4, b5, b6, b7])

/-! The step (00_scope.md R5; 60_exceptions.md; 70_reset_and_hazards.md) -/

/-- R5, R39: the host's next word, when it decodes to a command, is taken and the command performed. -/
def Obligations.StepPerformsTheDecodedCommand : Prop :=
  ∀ (s : State) (w : CmdWord) (rest : List Event) (i : Instr), s.events = .command w :: rest →
    decode w = .command i → step s = exec i (taken s rest)

/-- R122; the form of an idle step is the model's choice, log entry 4: with nothing issued, nothing changes. -/
def Obligations.StepWithNothingIssuedChangesNothing : Prop :=
  ∀ s : State, s.events = [] → step s = .next s

/-- R121, R122: every step answers a next state, and a run of `n` events ends after `n` steps with all of them taken. -/
def Obligations.EveryRunCompletes : Prop :=
  (∀ s : State, ∃ t, step s = .next t) ∧
  (∀ s : State, ∃ t, core.run s.events.length s = .next t ∧ t.events = [])

/-- R36: every command, faulting or not, produces exactly one response; its status is never 3; its data is the value
read for CRC_RD, BUF_RD, GET_I32 and GET_I16 with status OK, and 0 for every other command and every faulting one. -/
def Obligations.EveryCommandGetsOneResponse : Prop :=
  ∀ (s : State) (w : CmdWord) (rest : List Event), s.events = .command w :: rest →
    ∃ t r, step s = .next t ∧ t.events = rest ∧ t.responses = s.responses ++ [r] ∧ r.status ≠ 3#2 ∧
      (r.status ≠ 0#2 → r.data = 0#32) ∧
      (r.status = 0#2 → ∃ i, decode w = .command i ∧ r.data = valueRead i s)

/-- R102, R103, with R101 and R105: the status is 1 exactly when the word is illegal, 2 exactly when it is a command
whose access runs past the buffer, and otherwise 0. -/
def Obligations.FaultsExactlyWhenIllegalOrOutOfRange : Prop :=
  ∀ (s : State) (w : CmdWord) (rest : List Event), s.events = .command w :: rest →
    ∃ t r, step s = .next t ∧ t.responses = s.responses ++ [r] ∧
      (r.status = 1#2 ↔ ∃ why, decode w = .illegal why) ∧
      (r.status = 2#2 ↔ ∃ i off n, decode w = .command i ∧ accessOf i = some (off, n) ∧ 8 < off.toNat + n) ∧
      (r.status = 0#2 ↔ ∃ i, decode w = .command i ∧ accessLegal i = true)

/-- R106: what a fault does, in full. -/
def Obligations.FaultLeavesAllButTheRecord : Prop :=
  ∀ (s t : State) (w : CmdWord) (rest : List Event) (r : Response), s.events = .command w :: rest →
    step s = .next t → t.responses = s.responses ++ [r] → r.status ≠ 0#2 →
    t = faulted (taken s rest) r.status ∧ r = ⟨r.status, 0#32⟩ ∧ (r.status = 1#2 ∨ r.status = 2#2)

/-- R107: after a fault the next command is performed normally whatever `flt` holds, and no command clears or changes a
recorded fault; reset clears it. -/
def Obligations.RecordedFaultGatesNothing : Prop :=
  (∀ (s : State) (f : BitVec 2) (w : CmdWord) (rest : List Event), s.events = .command w :: rest →
    ∃ t t', step s = .next t ∧ step { s with flt := f } = .next t' ∧ t' = { t with flt := t'.flt }) ∧
  (∀ (s t : State) (w : CmdWord) (rest : List Event), s.events = .command w :: rest → s.flt ≠ 0#2 →
    step s = .next t → t.flt = s.flt) ∧
  (∀ (s : State) (rest : List Event), s.events = .reset :: rest → ∃ t, step s = .next t ∧ t.flt = 0#2)

/-- R13, R106, R107: after any run of commands `flt` holds what it held, or else the code of the run's first fault; so
it is 0 exactly when nothing has faulted. -/
def Obligations.FirstFaultIsTheOneRecorded : Prop :=
  ∀ (ws : List CmdWord) (s : State) (rest : List Event), s.events = ws.map .command ++ rest →
    ∃ t new, core.run ws.length s = .next t ∧ t.events = rest ∧ t.responses = s.responses ++ new ∧
      new.length = ws.length ∧ t.flt = (if s.flt = 0#2 then firstFault new else s.flt) ∧
      (s.flt = 0#2 → (t.noFaultRecorded = true ↔ ∀ r ∈ new, r.status = 0#2))

/-- R115: the effect of the reset event is exactly the three items of state; TABLE is the same; a command never clears
`flt`. -/
def Obligations.ResetEventClearsTheState : Prop :=
  (∀ (s : State) (rest : List Event), s.events = .reset :: rest →
    ∃ t, step s = .next t ∧ t = { taken s rest with crc := 0x0000#16, buf := [], flt := 0#2 } ∧
      (∀ k, Memory.read t.buf k = 0x00#8) ∧ t.cfg = s.cfg) ∧
  (∀ (s t : State) (w : CmdWord) (rest : List Event), s.events = .command w :: rest → s.flt ≠ 0#2 →
    step s = .next t → t.flt ≠ 0#2)

/-- R19: the values after reset. -/
def Obligations.ResetStateHasTheResetValues : Prop :=
  State.reset.crc = 0x0000#16 ∧ (∀ k, k < 8 → Memory.read State.reset.buf k = 0x00#8) ∧ State.reset.flt = 0#2 ∧
    (∀ s : State, (applyReset s).cfg = s.cfg)

/-! Invariants -/

/-- R12, R13, R20, R36: every step keeps the invariant, from every state that meets it. -/
def Obligations.EveryStepKeepsTheInvariant : Prop :=
  ∀ s t : State, s.Inv → step s = .next t → t.Inv

/-- R19: the state after reset meets the invariant. -/
def Obligations.ResetMeetsTheInvariant : Prop := State.reset.Inv

/-- R14: TABLE is the same after any step as before: no command writes it and reset does not change it. -/
def Obligations.TableIsNeverWritten : Prop :=
  ∀ s t : State, step s = .next t → t.cfg.table = s.cfg.table

/-! The access table (10_state.md R18) -/

/-- R18, entries w, and R13: what a command leaves unchanged. A faulting command writes only `flt`. -/
def Obligations.CommandsWriteOnlyTheirColumns : Prop :=
  ∀ (i : Instr) (s : State), ∃ t r, exec i s = .next t ∧ t.responses = s.responses ++ [r] ∧
    t.events = s.events ∧ t.cfg = s.cfg ∧
    (writesCrc i = false → t.crc = s.crc) ∧
    (∀ k, writesCell i k = false → k < 8 → Memory.read t.buf k = Memory.read s.buf k) ∧
    ((∀ k, writesCell i k = false) → t.buf = s.buf) ∧
    (r.status = 0#2 → t.flt = s.flt) ∧
    (r.status ≠ 0#2 → t.crc = s.crc ∧ t.buf = s.buf)

/-- R18, entries r, and R13: what a command's results do not depend on. The two states agree on what the command reads
and may differ in all else. -/
def Obligations.CommandsReadOnlyTheirColumns : Prop :=
  ∀ (i : Instr) (s s' : State),
    (readsCrc i = true → s.crc = s'.crc) → (readsTable i = true → s.cfg = s'.cfg) →
    (∀ k, readsCell i k = true → Memory.read s.buf k = Memory.read s'.buf k) →
    ∃ t t' r, exec i s = .next t ∧ exec i s' = .next t' ∧
      t.responses = s.responses ++ [r] ∧ t'.responses = s'.responses ++ [r] ∧
      (writesCrc i = true → t.crc = t'.crc) ∧
      (r.status = 0#2 → ∀ k, writesCell i k = true → Memory.read t.buf k = Memory.read t'.buf k)

/-! The checksum family (40_crc.md) -/

/-- R55: CRC_INIT. -/
def Obligations.CrcInitStartsAChecksum : Prop :=
  (∀ s : State, exec .crcInit s = .next (answered (withCrc s 0x0000#16) 0#32)) ∧
  decode 0x1000000000#40 = .command .crcInit ∧
  (∀ w : CmdWord, opField w = 0x1#4 → (offField w ≠ 0#4 ∨ dataField w ≠ 0#32) → decode w = .illegal .strayBits)

/-- R56: CRC_BYTE. The example is with TABLE_CCITT. -/
def Obligations.CrcByteFoldsOneByte : Prop :=
  (∀ (b : Byte) (s : State), exec (.crcByte b) s =
    .next (answered (withCrc s
      (tableRead s.cfg.table (b ^^^ s.crc.extractLsb' 8 8) ^^^ (s.crc.extractLsb' 0 8 ++ 0x00#8))) 0#32)) ∧
  (∀ b : Byte, decode (0x2#4 ++ 0x0#4 ++ 0x000000#24 ++ b) = .command (.crcByte b)) ∧
  (∀ w : CmdWord, opField w = 0x2#4 → (offField w ≠ 0#4 ∨ (dataField w).extractLsb' 8 24 ≠ 0#24) →
    decode w = .illegal .strayBits) ∧
  (∀ s : State, s.cfg.table = tableCcitt → s.crc = 0x2672#16 →
    exec (.crcByte 0x32#8) s = .next (answered (withCrc s 0x20B5#16) 0#32))

/-- R57: CRC_BUF, which ignores the old accumulator, reads the eight bytes in index order and equals CRC_INIT followed
by the eight CRC_BYTE commands. The example is with TABLE_CCITT. -/
def Obligations.CrcBufChecksumsTheBuffer : Prop :=
  (∀ s : State, exec .crcBuf s = .next (answered (withCrc s (checksum s.cfg.table
    [Memory.read s.buf 0, Memory.read s.buf 1, Memory.read s.buf 2, Memory.read s.buf 3,
     Memory.read s.buf 4, Memory.read s.buf 5, Memory.read s.buf 6, Memory.read s.buf 7])) 0#32)) ∧
  (∀ s : State, ∃ t u, exec .crcBuf s = .next t ∧
    execAll [.crcInit, .crcByte (Memory.read s.buf 0), .crcByte (Memory.read s.buf 1), .crcByte (Memory.read s.buf 2),
      .crcByte (Memory.read s.buf 3), .crcByte (Memory.read s.buf 4), .crcByte (Memory.read s.buf 5),
      .crcByte (Memory.read s.buf 6), .crcByte (Memory.read s.buf 7)] s = .next u ∧
    u.crc = t.crc ∧ u.buf = t.buf ∧ u.flt = t.flt) ∧
  (∀ s : State, tableRead s.cfg.table 0x00#8 = 0x0000#16 → (∀ k, k < 8 → Memory.read s.buf k = 0x00#8) →
    exec .crcBuf s = .next (answered (withCrc s 0x0000#16) 0#32)) ∧
  decode 0x3000000000#40 = .command .crcBuf ∧
  (∀ w : CmdWord, opField w = 0x3#4 → (offField w ≠ 0#4 ∨ dataField w ≠ 0#32) → decode w = .illegal .strayBits) ∧
  (∀ s : State, s.cfg.table = tableCcitt →
    Memory.payload s.buf = [0xE8#8, 0x03#8, 0x00#8, 0x00#8, 0xF4#8, 0x01#8, 0x00#8, 0x00#8] →
    exec .crcBuf s = .next (answered (withCrc s 0xD4ED#16) 0#32))

/-- R58: CRC_RD, zero-extended, the state unchanged. -/
def Obligations.CrcRdReadsTheAccumulator : Prop :=
  (∀ s : State, exec .crcRd s = .next (answered s (0x0000#16 ++ s.crc))) ∧
  decode 0x4000000000#40 = .command .crcRd ∧
  (∀ w : CmdWord, opField w = 0x4#4 → (offField w ≠ 0#4 ∨ dataField w ≠ 0#32) → decode w = .illegal .strayBits)

/-- R60: the laws of the checksum, for every TABLE (the spec marks R60 as derived from R50 and R51). -/
def Obligations.ChecksumLawsForEveryTable : Prop :=
  ∀ table : Table,
    checksum table [] = 0x0000#16 ∧
    (∀ b : Byte, checksum table [b] = tableRead table b) ∧
    (∀ b0 b1 : Byte, checksum table [b0, b1] =
      tableRead table (b1 ^^^ (tableRead table b0).extractLsb' 8 8) ^^^
        ((tableRead table b0).extractLsb' 0 8 ++ 0x00#8)) ∧
    (∀ xs ys : List Byte, checksum table (xs ++ ys) = ys.foldl (crcStep table) (checksum table xs)) ∧
    (∀ (r r' : Half) (b b' : Byte), b ^^^ r.extractLsb' 8 8 = b' ^^^ r'.extractLsb' 8 8 →
      r.extractLsb' 0 8 = r'.extractLsb' 0 8 → crcStep table r b = crcStep table r' b')

/-- R59: the streaming law (the spec marks it as derived). The words between may be any but CRC_INIT and CRC_BUF,
faulting ones included; a reset may take the place of the CRC_INIT. -/
def Obligations.StreamedBytesGiveTheirChecksum : Prop :=
  ∀ (s : State) (start : Event) (ws : List CmdWord) (rest : List Event),
    start = .command 0x1000000000#40 ∨ start = .reset →
    (∀ w ∈ ws, keepsStream (decode w) = true) →
    s.events = start :: (ws.map .command ++ .command 0x4000000000#40 :: rest) →
    ∃ t u, core.run (ws.length + 1) s = .next t ∧
      t.crc = checksum s.cfg.table (ws.flatMap (fun w => foldedBytes (decode w))) ∧
      step t = .next u ∧ u.events = rest ∧
      lastOk u ((checksum s.cfg.table (ws.flatMap (fun w => foldedBytes (decode w)))).setWidth 32)

/-- R61 (the spec marks it as derived from R59): after a CRC_INIT, a CRC_BUF or a reset the value CRC_RD returns depends
on the bytes folded since (for CRC_BUF on the buffer at that moment too) and on TABLE, and on nothing else of the state
or of the other commands. A CRC_INIT and a reset start one and the same stream. -/
def Obligations.CrcRdDependsOnTheFoldedBytesAlone : Prop :=
  ∀ (s s' : State) (start start' : Event) (ws ws' : List CmdWord) (rest rest' : List Event),
    s.cfg = s'.cfg →
    ((start = .command 0x1000000000#40 ∨ start = .reset) ∧ (start' = .command 0x1000000000#40 ∨ start' = .reset) ∨
      start = .command 0x3000000000#40 ∧ start' = .command 0x3000000000#40 ∧
        Memory.payload s.buf = Memory.payload s'.buf) →
    (∀ w ∈ ws, keepsStream (decode w) = true) → (∀ w ∈ ws', keepsStream (decode w) = true) →
    ws.flatMap (fun w => foldedBytes (decode w)) = ws'.flatMap (fun w => foldedBytes (decode w)) →
    s.events = start :: (ws.map .command ++ .command 0x4000000000#40 :: rest) →
    s'.events = start' :: (ws'.map .command ++ .command 0x4000000000#40 :: rest') →
    ∃ u u' data, core.run (ws.length + 2) s = .next u ∧ core.run (ws'.length + 2) s' = .next u' ∧
      lastOk u data ∧ lastOk u' data

/-- R54: the printed entries of TABLE_CCITT are those its recurrence gives (the spec marks TABLE_CCITT "from general
knowledge, not in source"; log entry 1). -/
def Obligations.TableCcittIsItsRecurrence : Prop :=
  ∀ i : Byte, tableRead tableCcitt i = serialShift8 (i ++ 0x00#8)

/-- R62: with TABLE_CCITT, and only then, the table step is the bit-serial step; the check value over "123456789" (the
spec marks this "from general knowledge, not in source"; log entry 1). -/
def Obligations.BitSerialFormIsTableCcittAlone : Prop :=
  (∀ table : Table, (∀ (r : Half) (b : Byte), crcStep table r b = crcStepSerial r b) ↔ table = tableCcitt) ∧
  checksum tableCcitt [0x31#8, 0x32#8, 0x33#8, 0x34#8, 0x35#8, 0x36#8, 0x37#8, 0x38#8, 0x39#8] = 0x31C3#16

/-- R53: a widened accumulator keeps the right low 16 bits; a sign-extending and a zero-filling right shift give the
same index; over "123456789" with TABLE_CCITT the widened one ends with bits above bit 15, and CRC_RD returns none. -/
def Obligations.WideningKeepsTheLowSixteenBits : Prop :=
  (∀ (table : Table) (r : BitVec 32) (b : Byte),
    (wideStep table r b).setWidth 16 = crcStep table (r.setWidth 16) b) ∧
  (∀ (r : Half) (b : Byte), (b ^^^ (r.sshiftRight 8).setWidth 8) = b ^^^ r.extractLsb' 8 8 ∧
    (b ^^^ (r >>> 8).setWidth 8) = b ^^^ r.extractLsb' 8 8) ∧
  (∀ r : Half, r <<< 8 = r.extractLsb' 0 8 ++ 0x00#8) ∧
  [0x31#8, 0x32#8, 0x33#8, 0x34#8, 0x35#8, 0x36#8, 0x37#8, 0x38#8, 0x39#8].foldl (wideStep tableCcitt) 0#32 =
    0x869031C3#32 ∧
  (∀ s : State, ∃ t d, exec .crcRd s = .next t ∧ lastOk t d ∧ d.extractLsb' 16 16 = 0#16)

/-! The buffer port family (42_buffer_port.md) -/

/-- R75: BUF_CLR, which leaves the bytes PUT_I32 of 0 at 0 and at 4 leave. -/
def Obligations.BufClrZeroesTheBuffer : Prop :=
  (∀ s : State, ∃ t, exec .bufClr s = .next t ∧ t = answered (withBuf s t.buf) 0#32 ∧
    (∀ k, k < 8 → Memory.read t.buf k = 0x00#8)) ∧
  (∀ s : State, ∃ t u, exec .bufClr s = .next t ∧ execAll [.putI32 0#4 0#32, .putI32 4#4 0#32] s = .next u ∧
    ∀ k, k < 8 → Memory.read u.buf k = Memory.read t.buf k) ∧
  decode 0x5000000000#40 = .command .bufClr ∧
  (∀ w : CmdWord, opField w = 0x5#4 → (offField w ≠ 0#4 ∨ dataField w ≠ 0#32) → decode w = .illegal .strayBits)

/-- R76: BUF_WR. In range it stores the byte at the effective address and leaves every other byte; out of range it
raises OffsetRange. -/
def Obligations.BufWrStoresOneByte : Prop :=
  (∀ (off : BitVec 4) (b : Byte) (s : State), off.toNat ≤ 7 →
    ∃ t, exec (.bufWr off b) s = .next t ∧ t = answered (withBuf s t.buf) 0#32 ∧
      (∀ a, effectiveAddress off = a → Memory.read t.buf a = b ∧
        ∀ k, k ≠ a → Memory.read t.buf k = Memory.read s.buf k)) ∧
  (∀ (off : BitVec 4) (b : Byte) (s : State), 7 < off.toNat → exec (.bufWr off b) s = .next (faulted s 2#2)) ∧
  (∀ (off : BitVec 4) (b : Byte), decode (0x6#4 ++ off ++ 0x000000#24 ++ b) = .command (.bufWr off b)) ∧
  (∀ w : CmdWord, opField w = 0x6#4 → (dataField w).extractLsb' 8 24 ≠ 0#24 → decode w = .illegal .strayBits)

/-- R77: BUF_RD, zero-extended, the state unchanged; after reset it returns 0. -/
def Obligations.BufRdReadsOneByte : Prop :=
  (∀ (off : BitVec 4) (s : State), off.toNat ≤ 7 →
    exec (.bufRd off) s = .next (answered s (0x000000#24 ++ Memory.read s.buf off.toNat))) ∧
  (∀ (off : BitVec 4) (s : State), off.toNat ≤ 7 →
    exec (.bufRd off) (applyReset s) = .next (answered (applyReset s) 0#32)) ∧
  (∀ (off : BitVec 4) (s : State), 7 < off.toNat → exec (.bufRd off) s = .next (faulted s 2#2)) ∧
  (∀ off : BitVec 4, decode (0x7#4 ++ off ++ 0x00000000#32) = .command (.bufRd off)) ∧
  (∀ w : CmdWord, opField w = 0x7#4 → dataField w ≠ 0#32 → decode w = .illegal .strayBits)

/-! The frame codec family (41_frame_codec.md) -/

/-- R65: PUT_I32. In range it stores four bytes from the effective address up, least significant first, and leaves every
other byte; out of range it raises OffsetRange. -/
def Obligations.PutI32StoresFourBytes : Prop :=
  (∀ (off : BitVec 4) (v : Word) (s : State), off.toNat ≤ 4 →
    ∃ t, exec (.putI32 off v) s = .next t ∧ t = answered (withBuf s t.buf) 0#32 ∧
      (∀ a, effectiveAddress off = a →
        Memory.read t.buf a = v.extractLsb' 0 8 ∧ Memory.read t.buf (a + 1) = v.extractLsb' 8 8 ∧
        Memory.read t.buf (a + 2) = v.extractLsb' 16 8 ∧ Memory.read t.buf (a + 3) = v.extractLsb' 24 8 ∧
        ∀ k, k < a ∨ a + 4 ≤ k → Memory.read t.buf k = Memory.read s.buf k)) ∧
  (∀ (off : BitVec 4) (v : Word) (s : State), 4 < off.toNat → exec (.putI32 off v) s = .next (faulted s 2#2)) ∧
  (∀ (off : BitVec 4) (v : Word), decode (0x8#4 ++ off ++ v) = .command (.putI32 off v)) ∧
  (∀ w : CmdWord, opField w = 0x8#4 → ∃ i, decode w = .command i)

/-- R66: PUT_I16. -/
def Obligations.PutI16StoresTwoBytes : Prop :=
  (∀ (off : BitVec 4) (v : Half) (s : State), off.toNat ≤ 6 →
    ∃ t, exec (.putI16 off v) s = .next t ∧ t = answered (withBuf s t.buf) 0#32 ∧
      (∀ a, effectiveAddress off = a →
        Memory.read t.buf a = v.extractLsb' 0 8 ∧ Memory.read t.buf (a + 1) = v.extractLsb' 8 8 ∧
        ∀ k, k < a ∨ a + 2 ≤ k → Memory.read t.buf k = Memory.read s.buf k)) ∧
  (∀ (off : BitVec 4) (v : Half) (s : State), 6 < off.toNat → exec (.putI16 off v) s = .next (faulted s 2#2)) ∧
  (∀ (off : BitVec 4) (v : Half), decode (0x9#4 ++ off ++ 0x0000#16 ++ v) = .command (.putI16 off v)) ∧
  (∀ w : CmdWord, opField w = 0x9#4 → (dataField w).extractLsb' 16 16 ≠ 0#16 → decode w = .illegal .strayBits)

/-- R67: GET_I32, the state unchanged; after reset it returns 0. -/
def Obligations.GetI32ReadsFourBytes : Prop :=
  (∀ (off : BitVec 4) (s : State), off.toNat ≤ 4 →
    exec (.getI32 off) s = .next (answered s
      (Memory.read s.buf (off.toNat + 3) ++ Memory.read s.buf (off.toNat + 2) ++
        Memory.read s.buf (off.toNat + 1) ++ Memory.read s.buf off.toNat))) ∧
  (∀ (off : BitVec 4) (s : State), off.toNat ≤ 4 →
    exec (.getI32 off) (applyReset s) = .next (answered (applyReset s) 0#32)) ∧
  (∀ (off : BitVec 4) (s : State), 4 < off.toNat → exec (.getI32 off) s = .next (faulted s 2#2)) ∧
  (∀ off : BitVec 4, decode (0xA#4 ++ off ++ 0x00000000#32) = .command (.getI32 off)) ∧
  (∀ w : CmdWord, opField w = 0xA#4 → dataField w ≠ 0#32 → decode w = .illegal .strayBits)

/-- R68: GET_I16, sign-extended: the response read as a signed number is the field read as a signed number; the state
unchanged. -/
def Obligations.GetI16ReadsTwoBytesSigned : Prop :=
  (∀ (off : BitVec 4) (s : State), off.toNat ≤ 6 →
    ∃ d : Word, exec (.getI16 off) s = .next (answered s d) ∧
      d.extractLsb' 0 8 = Memory.read s.buf off.toNat ∧ d.extractLsb' 8 8 = Memory.read s.buf (off.toNat + 1) ∧
      (∀ j, 16 ≤ j → j < 32 → d.getLsbD j = d.getLsbD 15) ∧ d.toInt = (d.setWidth 16).toInt) ∧
  (∀ (off : BitVec 4) (s : State), 6 < off.toNat → exec (.getI16 off) s = .next (faulted s 2#2)) ∧
  (∀ off : BitVec 4, decode (0xB#4 ++ off ++ 0x00000000#32) = .command (.getI16 off)) ∧
  (∀ w : CmdWord, opField w = 0xB#4 → dataField w ≠ 0#32 → decode w = .illegal .strayBits)

/-- R22: byte k of the value MemRead gives is the cell k above the address, and MemRead directly after MemWrite returns
the value, for each width. The range check of R23 that comes before is in the statements of the commands. -/
def Obligations.MemReadInvertsMemWrite : Prop :=
  (∀ (m : Memory) (a : Nat), (Memory.readHalf m a).extractLsb' 0 8 = Memory.read m a ∧
    (Memory.readHalf m a).extractLsb' 8 8 = Memory.read m (a + 1)) ∧
  (∀ (m : Memory) (a : Nat), (Memory.readWord m a).extractLsb' 0 8 = Memory.read m a ∧
    (Memory.readWord m a).extractLsb' 8 8 = Memory.read m (a + 1) ∧
    (Memory.readWord m a).extractLsb' 16 8 = Memory.read m (a + 2) ∧
    (Memory.readWord m a).extractLsb' 24 8 = Memory.read m (a + 3)) ∧
  (∀ (m : Memory) (a : Nat) (b : Byte), Memory.read (Memory.writeBytes m a [b]) a = b) ∧
  (∀ (m : Memory) (a : Nat) (v : Half), Memory.readHalf (Memory.writeBytes m a (bytesOfHalf v)) a = v) ∧
  (∀ (m : Memory) (a : Nat) (v : Word), Memory.readWord (Memory.writeBytes m a (bytesOfWord v)) a = v)

/-- R27 (the spec marks it as derived from R21 and R22): mixed widths see the same bytes; the rule's five reads. -/
def Obligations.MixedWidthsSeeTheSameBytes : Prop :=
  ∀ (m n : Memory), n = Memory.writeBytes m 0 (bytesOfWord 0x12345678#32) →
    Memory.read n 0 = 0x78#8 ∧ Memory.read n 1 = 0x56#8 ∧ Memory.readHalf n 0 = 0x5678#16 ∧
    Memory.readHalf n 2 = 0x1234#16 ∧ Memory.readHalf n 1 = 0x3456#16 ∧
    ∀ (a a' k : Nat) (bs bs' : List Byte), a' ≤ k → k < a' + bs'.length →
      Memory.read (Memory.writeBytes (Memory.writeBytes m a bs) a' bs') k = bs'.getD (k - a') 0x00#8

/-- R69 (the spec marks it as derived from R21 and R22): what a PUT wrote a GET at the same address returns, whatever
commands that do not write the field come between; and a GET and a PUT of the value returned leave the buffer as it was,
if it is in the canonical form of log entry 6. -/
def Obligations.PutThenGetReturnsTheValue : Prop :=
  (∀ (off : BitVec 4) (v : Word) (between : List Instr) (s : State), off.toNat ≤ 4 →
    (∀ i ∈ between, ∀ k, off.toNat ≤ k → k < off.toNat + 4 → writesCell i k = false) →
    ∃ t, execAll (.putI32 off v :: (between ++ [.getI32 off])) s = .next t ∧ lastOk t v) ∧
  (∀ (off : BitVec 4) (v : Half) (between : List Instr) (s : State), off.toNat ≤ 6 →
    (∀ i ∈ between, ∀ k, off.toNat ≤ k → k < off.toNat + 2 → writesCell i k = false) →
    ∃ t, execAll (.putI16 off v :: (between ++ [.getI16 off])) s = .next t ∧ lastOk t (v.signExtend 32)) ∧
  (∀ (off : BitVec 4) (s t : State) (d : Word), off.toNat ≤ 4 → Memory.wf s.buf = true →
    exec (.getI32 off) s = .next t → lastOk t d → ∃ u, exec (.putI32 off d) t = .next u ∧ u.buf = s.buf) ∧
  (∀ (off : BitVec 4) (s t : State) (d : Word), off.toNat ≤ 6 → Memory.wf s.buf = true →
    exec (.getI16 off) s = .next t → lastOk t d →
    ∃ u, exec (.putI16 off (d.setWidth 16)) t = .next u ∧ u.buf = s.buf)

/-- R70 (the spec marks it as derived from R21): a PUT writes exactly its field, and two PUTs to disjoint fields
commute: every byte reads the same after either order, and a buffer in the canonical form of log entry 6 is the same. -/
def Obligations.DisjointPutsCommute : Prop :=
  ∀ (p q : Instr) (s : State),
    ((∃ off v, p = .putI32 off v) ∨ ∃ off v, p = .putI16 off v) →
    ((∃ off v, q = .putI32 off v) ∨ ∃ off v, q = .putI16 off v) →
    accessLegal p = true → accessLegal q = true → (∀ k, writesCell p k = false ∨ writesCell q k = false) →
    (∃ t, exec p s = .next t ∧ ∀ k, writesCell p k = false → Memory.read t.buf k = Memory.read s.buf k) ∧
    ∃ t u, execAll [p, q] s = .next t ∧ execAll [q, p] s = .next u ∧
      (∀ k, Memory.read t.buf k = Memory.read u.buf k) ∧ (Memory.wf s.buf = true → t.buf = u.buf)

/-- R71 (the spec marks it as derived from R27): PUT_I32 leaves the buffer that two PUT_I16 and that four BUF_WR leave;
GET_I32 joins two GET_I16. -/
def Obligations.WideAccessIsItsParts : Prop :=
  (∀ (off : BitVec 4) (v : Word) (s : State), off.toNat ≤ 4 →
    ∃ t u x, exec (.putI32 off v) s = .next t ∧
      execAll [.putI16 off (v.extractLsb' 0 16), .putI16 (off + 2#4) (v.extractLsb' 16 16)] s = .next u ∧
      execAll [.bufWr off (v.extractLsb' 0 8), .bufWr (off + 1#4) (v.extractLsb' 8 8),
        .bufWr (off + 2#4) (v.extractLsb' 16 8), .bufWr (off + 3#4) (v.extractLsb' 24 8)] s = .next x ∧
      u.buf = t.buf ∧ x.buf = t.buf) ∧
  (∀ (off : BitVec 4) (s : State), off.toNat ≤ 4 →
    ∃ t u x d lo hi, exec (.getI32 off) s = .next t ∧ exec (.getI16 off) s = .next u ∧
      exec (.getI16 (off + 2#4)) s = .next x ∧ lastOk t d ∧ lastOk u lo ∧ lastOk x hi ∧
      d = hi.extractLsb' 0 16 ++ lo.extractLsb' 0 16)

/-! Hazards (70_reset_and_hazards.md) -/

/-- R118 (the spec marks it as derived): CRC_BUF and CRC_INIT discard a running stream; CRC_BYTE after CRC_BUF continues
from the buffer's checksum. -/
def Obligations.CrcBufAndStreamsShareTheAccumulator : Prop :=
  (∀ (s : State) (r : Half) (bs : List Byte), ∃ t u, execAll (.crcBuf :: bs.map .crcByte) s = .next t ∧
    execAll (.crcBuf :: bs.map .crcByte) { s with crc := r } = .next u ∧ u.crc = t.crc ∧
    t.crc = checksum s.cfg.table (Memory.payload s.buf ++ bs)) ∧
  (∀ (s : State) (r : Half) (bs : List Byte), ∃ t u, execAll (.crcInit :: bs.map .crcByte) s = .next t ∧
    execAll (.crcInit :: bs.map .crcByte) { s with crc := r } = .next u ∧ u.crc = t.crc ∧
    t.crc = checksum s.cfg.table bs)

/-- R119 (the spec marks it as derived): no command that writes `buf` after CRC_BUF updates `crc`, which stays the
checksum of the buffer as it was. -/
def Obligations.ChecksumIsOfTheBufferAtCrcBuf : Prop :=
  ∀ (s : State) (after : List Instr), (∀ i ∈ after, writesCrc i = false) →
    ∃ t, execAll (.crcBuf :: after) s = .next t ∧ t.crc = checksum s.cfg.table (Memory.payload s.buf)

/-! Payloads and fixed point (43_payload_formats.md) -/

/-- R84 to R89, R94: the commands that build a payload leave its eight bytes in BUF, whatever was there. -/
def Obligations.PayloadBuildLeavesItsBytes : Prop :=
  ∀ (p : Payload) (s : State), ∃ t, execAll (payloadBuild p) s = .next t ∧
    Memory.payload t.buf = payloadBytes p ∧ t.crc = s.crc ∧ t.flt = s.flt

/-- R91, R95 (the spec marks R95 as derived): the transmit recipe answers, last, the eight bytes of the payload in order
and then the checksum over exactly those bytes; nothing faults. -/
def Obligations.TransmitAnswersPayloadAndChecksum : Prop :=
  ∀ (p : Payload) (s : State), ∃ t before, execAll (transmit p) s = .next t ∧ t.flt = s.flt ∧
    t.responses = before ++ ((payloadBytes p).map (fun b => ⟨0#2, b.setWidth 32⟩) ++
      [⟨0#2, (checksum s.cfg.table (payloadBytes p)).setWidth 32⟩]) ∧
    ∀ sel : Half → Byte, wireBytes sel t = payloadBytes p ++ [sel (checksum s.cfg.table (payloadBytes p))]

/-- R90: a received payload placed in BUF gives nozzle n its byte n - 1. -/
def Obligations.StatusByteOfEachNozzle : Prop :=
  ∀ (b0 b1 b2 b3 b4 b5 b6 b7 : Byte) (s : State) (id : Nozzle),
    ∃ t, execAll (readStatus [b0, b1, b2, b3, b4, b5, b6, b7] id) s = .next t ∧
      lastOk t (([b0, b1, b2, b3].getD ((nozzleId id).toNat - 1) 0x00#8).setWidth 32)

/-- R93: the legal ranges fit their fields, whatever the tie rule of the host's rounding that meets the two requirements
of R92. Coordinates and products are exact rationals, the model's choice (log entry 10). -/
def Obligations.LegalRangesFitTheirFields : Prop :=
  ∀ rounding : Rounding,
    (∀ z : ℚ, legalZ z → 0 ≤ fieldZ rounding z ∧ fieldZ rounding z ≤ 12000 ∧ fitsHalf (fieldZ rounding z)) ∧
    (∀ c : ℚ, legalC c → -1800 ≤ fieldC rounding c ∧ fieldC rounding c ≤ 1800 ∧ fitsHalf (fieldC rounding c))

/-- R69, R80, R81, R82, R92 (and the document's property S8): a legal height or angle, and an X or Y coordinate whose
field fits 32 bits, put and read back is recovered within half a unit of its field; the field itself exactly.
Coordinates and products are exact rationals, the model's choice (log entry 10). -/
def Obligations.CoordinatesSurviveTheRoundTrip : Prop :=
  ∀ (rounding : Rounding) (off : BitVec 4) (s : State), off.toNat ≤ 6 →
    (∀ z : ℚ, legalZ z →
      ∃ t d, execAll [.putI16 off (patternHalf (fieldZ rounding z)), .getI16 off] s = .next t ∧ lastOk t d ∧
        signedData d = fieldZ rounding z ∧ |coordZ (signedData d) - z| ≤ 1 / 2000) ∧
    (∀ c : ℚ, legalC c →
      ∃ t d, execAll [.putI16 off (patternHalf (fieldC rounding c)), .getI16 off] s = .next t ∧ lastOk t d ∧
        signedData d = fieldC rounding c ∧ |coordC (signedData d) - c| ≤ 1 / 20) ∧
    (∀ value : ℚ, off.toNat ≤ 4 → fitsWord (fieldXY rounding value) →
      ∃ t d, execAll [.putI32 off (patternWord (fieldXY rounding value)), .getI32 off] s = .next t ∧ lastOk t d ∧
        signedData d = fieldXY rounding value ∧ |coordXY (signedData d) - value| ≤ 1 / 200)
end

