-- ==== Sys2Proof/Laws/Memory.lean ====
section
/-! SUPPORT. The laws of BUF as a list of cells: a read after a write (20_memory.md R21, R22, R30), and the canonical
form, which every memory operation keeps and which makes equal memories equal lists. -/

namespace Sys2Proof.Machine

@[simp] theorem Memory.read_nil (k : Nat) : Memory.read [] k = unwrittenByte := rfl

theorem Memory.read_cons (c : Host.Cell) (m : Memory) (k : Nat) :
    Memory.read (c :: m) k = if c.1 = k then c.2 else Memory.read m k := rfl

theorem Memory.erase_cons (c : Host.Cell) (m : Memory) (a : Nat) :
    Memory.erase (c :: m) a = if c.1 = a then Memory.erase m a else c :: Memory.erase m a := rfl

theorem Memory.insert_cons (c : Host.Cell) (m : Memory) (a : Nat) (b : Byte) :
    Memory.insert (c :: m) a b = if a < c.1 then (a, b) :: c :: m else c :: Memory.insert m a b := rfl

/-- Erasing `a` leaves no cell at `a`. -/
theorem Memory.erase_keys (m : Memory) (a : Nat) : ∀ c ∈ Memory.erase m a, c.1 ≠ a := by
  induction m with
  | nil => simp [Memory.erase]
  | cons c m ih =>
    rw [Memory.erase_cons]
    split
    · exact ih
    · simpa using ⟨‹_›, fun k v h => ih (k, v) h⟩

theorem Memory.read_erase_same (m : Memory) (a : Nat) : Memory.read (Memory.erase m a) a = unwrittenByte := by
  induction m with
  | nil => rfl
  | cons c m ih =>
    rw [Memory.erase_cons]
    split
    · exact ih
    · rw [Memory.read_cons, if_neg ‹_›, ih]

theorem Memory.read_erase_other (m : Memory) {a k : Nat} (h : k ≠ a) :
    Memory.read (Memory.erase m a) k = Memory.read m k := by
  induction m with
  | nil => rfl
  | cons c m ih =>
    rw [Memory.erase_cons, Memory.read_cons]
    split
    · rw [ih, if_neg (by omega)]
    · rw [Memory.read_cons, ih]

theorem Memory.read_insert_same (m : Memory) (a : Nat) (b : Byte) (h : ∀ c ∈ m, c.1 ≠ a) :
    Memory.read (Memory.insert m a b) a = b := by
  induction m with
  | nil => simp [Memory.insert, Memory.read_cons]
  | cons c m ih =>
    rw [Memory.insert_cons]
    split
    · simp [Memory.read_cons]
    · rw [Memory.read_cons, if_neg (h c (by simp)), ih (fun d hd => h d (by simp [hd]))]

theorem Memory.read_insert_other (m : Memory) {a k : Nat} (b : Byte) (h : k ≠ a) :
    Memory.read (Memory.insert m a b) k = Memory.read m k := by
  induction m with
  | nil => simp [Memory.insert, Memory.read_cons, h.symm]
  | cons c m ih =>
    rw [Memory.insert_cons]
    split
    · rw [Memory.read_cons, if_neg h.symm]
    · rw [Memory.read_cons, ih, ← Memory.read_cons]

/-- What a read sees after a write, for any list of cells. -/
theorem Memory.read_write (m : Memory) (a k : Nat) (b : Byte) :
    Memory.read (Memory.write m a b) k = if k = a then b else Memory.read m k := by
  unfold Memory.write
  by_cases hk : k = a
  · subst hk
    split
    · simp [Memory.read_erase_same, *]
    · simp [Memory.read_insert_same _ _ _ (Memory.erase_keys m k)]
  · rw [if_neg hk]
    split
    · exact Memory.read_erase_other m hk
    · rw [Memory.read_insert_other _ _ hk, Memory.read_erase_other m hk]

theorem Memory.read_write_same (m : Memory) (a : Nat) (b : Byte) : Memory.read (Memory.write m a b) a = b := by
  rw [Memory.read_write, if_pos rfl]

theorem Memory.read_write_other (m : Memory) {a k : Nat} (b : Byte) (h : k ≠ a) :
    Memory.read (Memory.write m a b) k = Memory.read m k := by
  rw [Memory.read_write, if_neg h]

/-- What a read sees after bytes were written from `a` up. -/
theorem Memory.read_writeBytes (m : Memory) (a k : Nat) (bs : List Byte) :
    Memory.read (Memory.writeBytes m a bs) k =
      if a ≤ k ∧ k < a + bs.length then bs.getD (k - a) unwrittenByte else Memory.read m k := by
  induction bs generalizing m a with
  | nil => rw [if_neg (by simp), Memory.writeBytes]
  | cons b bs ih =>
    rw [Memory.writeBytes, ih, Memory.read_write]
    rcases Nat.lt_trichotomy k a with h | h | h
    · rw [if_neg (by omega), if_neg (by omega), if_neg (by omega)]
    · subst h
      rw [if_neg (by omega), if_pos rfl, if_pos (by simp)]
      simp
    · obtain ⟨d, rfl⟩ : ∃ d, k = a + 1 + d := ⟨k - (a + 1), by omega⟩
      have e1 : a + 1 + d - (a + 1) = d := by omega
      have e2 : a + 1 + d - a = d + 1 := by omega
      rw [e1, e2, if_neg (show ¬(a + 1 + d = a) by omega)]
      by_cases hd : d < bs.length
      · rw [if_pos (by omega), if_pos (by simp; omega)]
        simp
      · rw [if_neg (by omega), if_neg (by simp; omega)]

/-- A write of bytes leaves every byte outside them as it was. -/
theorem Memory.read_writeBytes_outside (m : Memory) (a k : Nat) (bs : List Byte) (h : k < a ∨ a + bs.length ≤ k) :
    Memory.read (Memory.writeBytes m a bs) k = Memory.read m k := by
  rw [Memory.read_writeBytes, if_neg (by omega)]

/-! The canonical form -/

theorem Memory.wfFrom_cons (lo : Nat) (c : Host.Cell) (m : Memory) :
    Memory.wfFrom lo (c :: m) = true ↔
      lo ≤ c.1 ∧ c.1 < 8 ∧ c.2 ≠ unwrittenByte ∧ Memory.wfFrom (c.1 + 1) m = true := by
  obtain ⟨k, v⟩ := c
  simp only [Memory.wfFrom, Bool.and_eq_true, decide_eq_true_eq]
  tauto

theorem Memory.wfFrom_weaken {m : Memory} {lo lo' : Nat} (h : lo' ≤ lo) (hm : Memory.wfFrom lo m = true) :
    Memory.wfFrom lo' m = true := by
  cases m with
  | nil => rfl
  | cons c m =>
    rw [Memory.wfFrom_cons] at hm ⊢
    exact ⟨by omega, hm.2⟩

theorem Memory.wfFrom_erase {m : Memory} {lo : Nat} (a : Nat) (hm : Memory.wfFrom lo m = true) :
    Memory.wfFrom lo (Memory.erase m a) = true := by
  induction m generalizing lo with
  | nil => rfl
  | cons c m ih =>
    rw [Memory.wfFrom_cons] at hm
    rw [Memory.erase_cons]
    split
    · exact ih (Memory.wfFrom_weaken (by omega) hm.2.2.2)
    · rw [Memory.wfFrom_cons]
      exact ⟨hm.1, hm.2.1, hm.2.2.1, ih hm.2.2.2⟩

theorem Memory.wfFrom_insert {m : Memory} {lo a : Nat} {b : Byte} (hm : Memory.wfFrom lo m = true) (hlo : lo ≤ a)
    (ha : a < 8) (hb : b ≠ unwrittenByte) (hk : ∀ c ∈ m, c.1 ≠ a) :
    Memory.wfFrom lo (Memory.insert m a b) = true := by
  induction m generalizing lo with
  | nil => simp [Memory.insert, Memory.wfFrom, hlo, ha, hb]
  | cons c m ih =>
    have hc := hk c (by simp)
    rw [Memory.wfFrom_cons] at hm
    rw [Memory.insert_cons]
    split
    · rw [Memory.wfFrom_cons, Memory.wfFrom_cons]
      exact ⟨hlo, ha, hb, by omega, hm.2⟩
    · rw [Memory.wfFrom_cons]
      exact ⟨hm.1, hm.2.1, hm.2.2.1, ih hm.2.2.2 (by omega) (fun d hd => hk d (by simp [hd]))⟩

/-- A write below address 8 keeps the canonical form. -/
theorem Memory.wf_write {m : Memory} {a : Nat} (b : Byte) (hm : Memory.wf m = true) (ha : a < 8) :
    Memory.wf (Memory.write m a b) = true := by
  have he : Memory.wfFrom 0 (Memory.erase m a) = true := Memory.wfFrom_erase a hm
  unfold Memory.write
  split
  · exact he
  · exact Memory.wfFrom_insert he (by omega) ha ‹_› (Memory.erase_keys m a)

/-- A write of bytes inside the buffer keeps the canonical form. -/
theorem Memory.wf_writeBytes {m : Memory} {a : Nat} {bs : List Byte} (hm : Memory.wf m = true)
    (ha : a + bs.length ≤ 8) : Memory.wf (Memory.writeBytes m a bs) = true := by
  induction bs generalizing m a with
  | nil => exact hm
  | cons b bs ih =>
    simp only [List.length_cons] at ha
    exact ih (Memory.wf_write b hm (by omega)) (by omega)

@[simp] theorem Memory.wf_nil : Memory.wf [] = true := rfl

theorem Memory.read_below {m : Memory} {lo k : Nat} (hm : Memory.wfFrom lo m = true) (h : k < lo) :
    Memory.read m k = unwrittenByte := by
  induction m generalizing lo with
  | nil => rfl
  | cons c m ih =>
    rw [Memory.wfFrom_cons] at hm
    rw [Memory.read_cons, if_neg (by omega), ih hm.2.2.2 (by omega)]

/-- Canonical memories that read alike at every address are the same list. -/
theorem Memory.eq_of_read_eq {m n : Memory} {lo : Nat} (hm : Memory.wfFrom lo m = true)
    (hn : Memory.wfFrom lo n = true) (h : ∀ k, Memory.read m k = Memory.read n k) : m = n := by
  induction m generalizing lo n with
  | nil =>
    cases n with
    | nil => rfl
    | cons d n =>
      rw [Memory.wfFrom_cons] at hn
      have := h d.1
      simp [Memory.read_cons] at this
      exact absurd this.symm hn.2.2.1
  | cons c m ih =>
    rw [Memory.wfFrom_cons] at hm
    cases n with
    | nil =>
      have := h c.1
      simp [Memory.read_cons] at this
      exact absurd this hm.2.2.1
    | cons d n =>
      rw [Memory.wfFrom_cons] at hn
      have hcd : c.1 = d.1 := by
        rcases Nat.lt_trichotomy c.1 d.1 with g | g | g
        · have := h c.1
          rw [Memory.read_cons, if_pos rfl, Memory.read_cons, if_neg (by omega),
            Memory.read_below hn.2.2.2 (by omega)] at this
          exact absurd this hm.2.2.1
        · exact g
        · have := h d.1
          rw [Memory.read_cons, if_neg (by omega), Memory.read_below hm.2.2.2 (by omega), Memory.read_cons,
            if_pos rfl] at this
          exact absurd this.symm hn.2.2.1
      have hv : c.2 = d.2 := by
        have := h c.1
        rwa [Memory.read_cons, if_pos rfl, Memory.read_cons, if_pos hcd.symm] at this
      have hmn : m = n := by
        refine ih hm.2.2.2 (hcd ▸ hn.2.2.2) (fun k => ?_)
        by_cases hk : k = c.1
        · rw [Memory.read_below hm.2.2.2 (by omega), Memory.read_below hn.2.2.2 (by omega)]
        · have := h k
          rwa [Memory.read_cons, if_neg (by omega), Memory.read_cons, if_neg (by omega)] at this
      rw [hmn, Prod.ext hcd hv]

/-- In canonical form an address past the buffer reads as unwritten. -/
theorem Memory.read_past {m : Memory} {lo k : Nat} (hm : Memory.wfFrom lo m = true) (h : 8 ≤ k) :
    Memory.read m k = unwrittenByte := by
  induction m generalizing lo with
  | nil => rfl
  | cons c m ih =>
    rw [Memory.wfFrom_cons] at hm
    rw [Memory.read_cons, if_neg (by omega), ih hm.2.2.2]

end Sys2Proof.Machine
end

