-- ==== Sys2Proof/Laws/Access.lean ====
section
/-! SUPPORT. The wider accesses to BUF, byte by byte (20_memory.md R21, R22, R27), and a value split into bytes and put
together again. -/

namespace Sys2Proof.Machine

theorem halfOfBytes_split (v : Half) : halfOfBytes (v.extractLsb' 0 8) (v.extractLsb' 8 8) = v := by
  apply BitVec.eq_of_getLsbD_eq
  intro i hi
  rw [halfOfBytes, BitVec.getLsbD_append]
  interval_cases i <;> simp

theorem wordOfBytes_split (v : Word) :
    wordOfBytes (v.extractLsb' 0 8) (v.extractLsb' 8 8) (v.extractLsb' 16 8) (v.extractLsb' 24 8) = v := by
  apply BitVec.eq_of_getLsbD_eq
  intro i hi
  rw [wordOfBytes, BitVec.getLsbD_append, BitVec.getLsbD_append, BitVec.getLsbD_append]
  interval_cases i <;> simp

theorem Memory.read_writeByte (m : Memory) (a k : Nat) (b : Byte) :
    Memory.read (Memory.writeBytes m a [b]) k = if k = a then b else Memory.read m k := by
  simp only [Memory.writeBytes, Memory.read_write]

theorem Memory.read_writeHalf (m : Memory) (a k : Nat) (v : Half) :
    Memory.read (Memory.writeBytes m a (bytesOfHalf v)) k =
      if k = a then v.extractLsb' 0 8 else if k = a + 1 then v.extractLsb' 8 8 else Memory.read m k := by
  simp only [bytesOfHalf, Memory.writeBytes, Memory.read_write]
  split_ifs <;> first | rfl | omega

theorem Memory.read_writeWord (m : Memory) (a k : Nat) (v : Word) :
    Memory.read (Memory.writeBytes m a (bytesOfWord v)) k =
      if k = a then v.extractLsb' 0 8 else if k = a + 1 then v.extractLsb' 8 8
      else if k = a + 2 then v.extractLsb' 16 8 else if k = a + 3 then v.extractLsb' 24 8 else Memory.read m k := by
  simp only [bytesOfWord, Memory.writeBytes, Memory.read_write]
  split_ifs <;> first | rfl | omega

end Sys2Proof.Machine
end

