-- ==== Sys2Proof/Laws/Encoding.lean ====
section
/-! SUPPORT. The bits and the fields of a packed word, and a word from its fields (30_encoding.md R35). -/

namespace Sys2Proof

/-- The bits of a packed word. -/
theorem getLsbD_packFields (op off : BitVec 4) (data : Word) (i : Nat) :
    (packFields op off data).getLsbD i =
      if i < 32 then data.getLsbD i else if i < 36 then off.getLsbD (i - 32) else op.getLsbD (i - 36) := by
  unfold packFields
  rw [BitVec.getLsbD_append, BitVec.getLsbD_append]
  by_cases h : i < 32
  · rw [if_pos h, if_pos h]
  · by_cases h' : i < 36
    · rw [if_neg h, if_neg h, if_pos h', if_pos (by omega)]
    · rw [if_neg h, if_neg h, if_neg h', if_neg (by omega), show i - 32 - 4 = i - 36 by omega]

@[simp] theorem opField_packFields (op off : BitVec 4) (data : Word) : opField (packFields op off data) = op := by
  apply BitVec.eq_of_getLsbD_eq
  intro i hi
  rw [opField, BitVec.getLsbD_extractLsb', getLsbD_packFields, if_neg (by omega), if_neg (by omega)]
  simp [hi]

@[simp] theorem offField_packFields (op off : BitVec 4) (data : Word) : offField (packFields op off data) = off := by
  apply BitVec.eq_of_getLsbD_eq
  intro i hi
  rw [offField, BitVec.getLsbD_extractLsb', getLsbD_packFields, if_neg (by omega), if_pos (by omega)]
  simp [hi]

@[simp] theorem dataField_packFields (op off : BitVec 4) (data : Word) :
    dataField (packFields op off data) = data := by
  apply BitVec.eq_of_getLsbD_eq
  intro i hi
  rw [dataField, BitVec.getLsbD_extractLsb', getLsbD_packFields, if_pos (by omega)]
  simp [hi]

/-- A word is its three fields. -/
theorem packFields_fields (w : CmdWord) : packFields (opField w) (offField w) (dataField w) = w := by
  apply BitVec.eq_of_getLsbD_eq
  intro i hi
  rw [getLsbD_packFields, opField, offField, dataField]
  simp only [BitVec.getLsbD_extractLsb']
  by_cases h : i < 32
  · simp [h]
  · by_cases h' : i < 36
    · simp [h, h', show i - 32 < 4 by omega, show 32 + (i - 32) = i by omega]
    · simp [h, h', show i - 36 < 4 by omega, show 36 + (i - 36) = i by omega]

/-- Decoding a packed word reads its fields. -/
@[simp] theorem decode_packFields (op off : BitVec 4) (data : Word) :
    decode (packFields op off data) = decodeFields op off data := by
  simp [decode]

/-- The fields of a byte put into the data field: the byte below, zeros above (R37). -/
@[simp] theorem lowByte_of_data (b : Byte) : (b.setWidth 32).extractLsb' 0 8 = b := by
  apply BitVec.eq_of_getLsbD_eq
  intro i hi
  simp [hi]
  omega

@[simp] theorem highBits_of_byte (b : Byte) : (b.setWidth 32).extractLsb' 8 24 = 0#24 := by
  apply BitVec.eq_of_getLsbD_eq
  intro i hi
  simp

@[simp] theorem lowHalf_of_data (h : Half) : (h.setWidth 32).extractLsb' 0 16 = h := by
  apply BitVec.eq_of_getLsbD_eq
  intro i hi
  simp [hi]
  omega

@[simp] theorem highBits_of_half (h : Half) : (h.setWidth 32).extractLsb' 16 16 = 0#16 := by
  apply BitVec.eq_of_getLsbD_eq
  intro i hi
  simp

/-- A data field that is 0 above bit 7 is its low byte (R37). -/
theorem data_of_byte {d : Word} (h : d.extractLsb' 8 24 = 0#24) : (d.extractLsb' 0 8).setWidth 32 = d := by
  apply BitVec.eq_of_getLsbD_eq
  intro i hi
  by_cases g : i < 8
  · simp [g, hi]
  · have := congrArg (fun x => x.getLsbD (i - 8)) h
    simp only [BitVec.getLsbD_extractLsb', show i - 8 < 24 by omega, show 8 + (i - 8) = i by omega] at this
    simp only [decide_true, Bool.true_and, BitVec.getLsbD_zero] at this
    rw [BitVec.getLsbD_setWidth, BitVec.getLsbD_extractLsb', this]
    simp [g]

/-- A data field that is 0 above bit 15 is its low half (R37). -/
theorem data_of_half {d : Word} (h : d.extractLsb' 16 16 = 0#16) : (d.extractLsb' 0 16).setWidth 32 = d := by
  apply BitVec.eq_of_getLsbD_eq
  intro i hi
  by_cases g : i < 16
  · simp [g, hi]
  · have := congrArg (fun x => x.getLsbD (i - 16)) h
    simp only [BitVec.getLsbD_extractLsb', show i - 16 < 16 by omega, show 16 + (i - 16) = i by omega] at this
    simp only [decide_true, Bool.true_and, BitVec.getLsbD_zero] at this
    rw [BitVec.getLsbD_setWidth, BitVec.getLsbD_extractLsb', this]
    simp [g]

/-- Masking a packed word masks its fields. -/
theorem packFields_and (op off op' off' : BitVec 4) (data data' : Word) :
    packFields op off data &&& packFields op' off' data' = packFields (op &&& op') (off &&& off') (data &&& data') := by
  apply BitVec.eq_of_getLsbD_eq
  intro i hi
  simp only [BitVec.getLsbD_and, getLsbD_packFields]
  split
  · rfl
  · split <;> rfl

/-- Packed words are equal exactly when their fields are. -/
theorem packFields_inj {op off op' off' : BitVec 4} {data data' : Word} :
    packFields op off data = packFields op' off' data' ↔ op = op' ∧ off = off' ∧ data = data' := by
  constructor
  · intro h
    have h1 := congrArg opField h
    have h2 := congrArg offField h
    have h3 := congrArg dataField h
    simp only [opField_packFields, offField_packFields, dataField_packFields] at h1 h2 h3
    exact ⟨h1, h2, h3⟩
  · rintro ⟨rfl, rfl, rfl⟩
    rfl

/-! What each shape answers (R37, R40) -/

@[simp] theorem shapeN_eq_command {off : BitVec 4} {data : Word} {i : Instr} {j : Instr} :
    shapeN off data i = .command j ↔ (off = 0#4 ∧ data = 0#32) ∧ i = j := by
  unfold shapeN
  split <;> simp_all

@[simp] theorem shapeN_eq_illegal {off : BitVec 4} {data : Word} {i : Instr} {why : IllegalReason} :
    shapeN off data i = .illegal why ↔ ¬(off = 0#4 ∧ data = 0#32) ∧ .strayBits = why := by
  unfold shapeN
  split <;> simp_all

@[simp] theorem shapeB_eq_command {off : BitVec 4} {data : Word} {i : Byte → Instr} {j : Instr} :
    shapeB off data i = .command j ↔ (off = 0#4 ∧ data.extractLsb' 8 24 = 0#24) ∧ i (data.extractLsb' 0 8) = j := by
  unfold shapeB
  split <;> simp_all

@[simp] theorem shapeB_eq_illegal {off : BitVec 4} {data : Word} {i : Byte → Instr} {why : IllegalReason} :
    shapeB off data i = .illegal why ↔ ¬(off = 0#4 ∧ data.extractLsb' 8 24 = 0#24) ∧ .strayBits = why := by
  unfold shapeB
  split <;> simp_all

@[simp] theorem shapeA_eq_command {off : BitVec 4} {data : Word} {i : BitVec 4 → Instr} {j : Instr} :
    shapeA off data i = .command j ↔ (data = 0#32) ∧ i off = j := by
  unfold shapeA
  split <;> simp_all

@[simp] theorem shapeA_eq_illegal {off : BitVec 4} {data : Word} {i : BitVec 4 → Instr} {why : IllegalReason} :
    shapeA off data i = .illegal why ↔ ¬(data = 0#32) ∧ .strayBits = why := by
  unfold shapeA
  split <;> simp_all

@[simp] theorem shapeAB_eq_command {off : BitVec 4} {data : Word} {i : BitVec 4 → Byte → Instr} {j : Instr} :
    shapeAB off data i = .command j ↔ (data.extractLsb' 8 24 = 0#24) ∧ i off (data.extractLsb' 0 8) = j := by
  unfold shapeAB
  split <;> simp_all

@[simp] theorem shapeAB_eq_illegal {off : BitVec 4} {data : Word} {i : BitVec 4 → Byte → Instr} {why : IllegalReason} :
    shapeAB off data i = .illegal why ↔ ¬(data.extractLsb' 8 24 = 0#24) ∧ .strayBits = why := by
  unfold shapeAB
  split <;> simp_all

@[simp] theorem shapeAH_eq_command {off : BitVec 4} {data : Word} {i : BitVec 4 → Half → Instr} {j : Instr} :
    shapeAH off data i = .command j ↔ (data.extractLsb' 16 16 = 0#16) ∧ i off (data.extractLsb' 0 16) = j := by
  unfold shapeAH
  split <;> simp_all

@[simp] theorem shapeAH_eq_illegal {off : BitVec 4} {data : Word} {i : BitVec 4 → Half → Instr} {why : IllegalReason} :
    shapeAH off data i = .illegal why ↔ ¬(data.extractLsb' 16 16 = 0#16) ∧ .strayBits = why := by
  unfold shapeAH
  split <;> simp_all

@[simp] theorem shapeAW_eq_command {off : BitVec 4} {data : Word} {i : BitVec 4 → Word → Instr} {j : Instr} :
    shapeAW off data i = .command j ↔ i off data = j := by
  simp [shapeAW]

/-- The mask of the bits above a byte (R38, rows of shape B and AB). -/
theorem and_maskAboveByte (d : Word) : d &&& 0xFFFFFF00#32 = 0#32 ↔ d.extractLsb' 8 24 = 0#24 := by
  constructor
  · intro h
    apply BitVec.eq_of_getLsbD_eq
    intro i hi
    have hd := congrArg (fun x => x.getLsbD (8 + i)) h
    simp only [BitVec.getLsbD_and] at hd
    have hm : (0xFFFFFF00#32).getLsbD (8 + i) = true := by interval_cases i <;> rfl
    simp [hm] at hd
    simp [hd]
  · intro h
    rw [← data_of_byte h]
    apply BitVec.eq_of_getLsbD_eq
    intro i hi
    interval_cases i <;> simp

/-- The mask of the bits above a half (R38, the row of shape AH). -/
theorem and_maskAboveHalf (d : Word) : d &&& 0xFFFF0000#32 = 0#32 ↔ d.extractLsb' 16 16 = 0#16 := by
  constructor
  · intro h
    apply BitVec.eq_of_getLsbD_eq
    intro i hi
    have hd := congrArg (fun x => x.getLsbD (16 + i)) h
    simp only [BitVec.getLsbD_and] at hd
    have hm : (0xFFFF0000#32).getLsbD (16 + i) = true := by interval_cases i <;> rfl
    simp [hm] at hd
    simp [hd]
  · intro h
    rw [← data_of_half h]
    apply BitVec.eq_of_getLsbD_eq
    intro i hi
    interval_cases i <;> simp

/-- Matching a row is matching it field by field. -/
theorem and_mask_eq_pattern (w : CmdWord) (row : OpcodeRow) :
    w &&& row.mask = row.pattern ↔
      opField w &&& opField row.mask = opField row.pattern ∧
        offField w &&& offField row.mask = offField row.pattern ∧
          dataField w &&& dataField row.mask = dataField row.pattern := by
  conv_lhs => rw [← packFields_fields w, ← packFields_fields row.mask, ← packFields_fields row.pattern]
  rw [packFields_and, packFields_inj]

end Sys2Proof
end

