-- ==== Sys2Proof/Laws/State.lean ====
section
/-! SUPPORT. What each update of the state does to each field, so that no proof unfolds a record update. -/

namespace Sys2Proof.Machine

/-! `setCrc` -/

@[simp] theorem setCrc_crc (v : Half) (s : State) : (setCrc v s).crc = v := rfl

@[simp] theorem setCrc_buf (v : Half) (s : State) : (setCrc v s).buf = s.buf := rfl

@[simp] theorem setCrc_flt (v : Half) (s : State) : (setCrc v s).flt = s.flt := rfl

@[simp] theorem setCrc_cfg (v : Half) (s : State) : (setCrc v s).cfg = s.cfg := rfl

@[simp] theorem setCrc_events (v : Half) (s : State) : (setCrc v s).events = s.events := rfl

@[simp] theorem setCrc_responses (v : Half) (s : State) : (setCrc v s).responses = s.responses := rfl

/-! `setBuf` -/

@[simp] theorem setBuf_crc (m : Memory) (s : State) : (setBuf m s).crc = s.crc := rfl

@[simp] theorem setBuf_buf (m : Memory) (s : State) : (setBuf m s).buf = m := rfl

@[simp] theorem setBuf_flt (m : Memory) (s : State) : (setBuf m s).flt = s.flt := rfl

@[simp] theorem setBuf_cfg (m : Memory) (s : State) : (setBuf m s).cfg = s.cfg := rfl

@[simp] theorem setBuf_events (m : Memory) (s : State) : (setBuf m s).events = s.events := rfl

@[simp] theorem setBuf_responses (m : Memory) (s : State) : (setBuf m s).responses = s.responses := rfl

/-! `respond` -/

@[simp] theorem respond_crc (status : BitVec 2) (data : Word) (s : State) : (respond status data s).crc = s.crc := rfl

@[simp] theorem respond_buf (status : BitVec 2) (data : Word) (s : State) : (respond status data s).buf = s.buf := rfl

@[simp] theorem respond_flt (status : BitVec 2) (data : Word) (s : State) : (respond status data s).flt = s.flt := rfl

@[simp] theorem respond_cfg (status : BitVec 2) (data : Word) (s : State) : (respond status data s).cfg = s.cfg := rfl

@[simp] theorem respond_events (status : BitVec 2) (data : Word) (s : State) : (respond status data s).events = s.events := rfl

@[simp] theorem respond_responses (status : BitVec 2) (data : Word) (s : State) : (respond status data s).responses = s.responses ++ [⟨status, data⟩] := rfl

/-! `respondOk` -/

@[simp] theorem respondOk_crc (data : Word) (s : State) : (respondOk data s).crc = s.crc := rfl

@[simp] theorem respondOk_buf (data : Word) (s : State) : (respondOk data s).buf = s.buf := rfl

@[simp] theorem respondOk_flt (data : Word) (s : State) : (respondOk data s).flt = s.flt := rfl

@[simp] theorem respondOk_cfg (data : Word) (s : State) : (respondOk data s).cfg = s.cfg := rfl

@[simp] theorem respondOk_events (data : Word) (s : State) : (respondOk data s).events = s.events := rfl

@[simp] theorem respondOk_responses (data : Word) (s : State) : (respondOk data s).responses = s.responses ++ [⟨0#2, data⟩] := rfl

/-! `raiseFault` -/

@[simp] theorem raiseFault_crc (cause : FaultCause) (s : State) : (raiseFault cause s).crc = s.crc := rfl

@[simp] theorem raiseFault_buf (cause : FaultCause) (s : State) : (raiseFault cause s).buf = s.buf := rfl

@[simp] theorem raiseFault_flt (cause : FaultCause) (s : State) : (raiseFault cause s).flt = latchFault s.flt cause := rfl

@[simp] theorem raiseFault_cfg (cause : FaultCause) (s : State) : (raiseFault cause s).cfg = s.cfg := rfl

@[simp] theorem raiseFault_events (cause : FaultCause) (s : State) : (raiseFault cause s).events = s.events := rfl

@[simp] theorem raiseFault_responses (cause : FaultCause) (s : State) : (raiseFault cause s).responses = s.responses ++ [⟨faultCode cause, 0#32⟩] := rfl

/-! `applyReset` -/

@[simp] theorem applyReset_crc (s : State) : (applyReset s).crc = 0x0000#16 := rfl

@[simp] theorem applyReset_buf (s : State) : (applyReset s).buf = [] := rfl

@[simp] theorem applyReset_flt (s : State) : (applyReset s).flt = 0#2 := rfl

@[simp] theorem applyReset_cfg (s : State) : (applyReset s).cfg = s.cfg := rfl

@[simp] theorem applyReset_events (s : State) : (applyReset s).events = s.events := rfl

@[simp] theorem applyReset_responses (s : State) : (applyReset s).responses = s.responses := rfl

/-! `dropEvent` -/

@[simp] theorem dropEvent_crc (s : State) : (dropEvent s).crc = s.crc := rfl

@[simp] theorem dropEvent_buf (s : State) : (dropEvent s).buf = s.buf := rfl

@[simp] theorem dropEvent_flt (s : State) : (dropEvent s).flt = s.flt := rfl

@[simp] theorem dropEvent_cfg (s : State) : (dropEvent s).cfg = s.cfg := rfl

@[simp] theorem dropEvent_events (s : State) : (dropEvent s).events = s.events.tail := rfl

@[simp] theorem dropEvent_responses (s : State) : (dropEvent s).responses = s.responses := rfl

/-! `issueFirst` -/

@[simp] theorem issueFirst_crc (w : CmdWord) (s : State) : (issueFirst w s).crc = s.crc := rfl

@[simp] theorem issueFirst_buf (w : CmdWord) (s : State) : (issueFirst w s).buf = s.buf := rfl

@[simp] theorem issueFirst_flt (w : CmdWord) (s : State) : (issueFirst w s).flt = s.flt := rfl

@[simp] theorem issueFirst_cfg (w : CmdWord) (s : State) : (issueFirst w s).cfg = s.cfg := rfl

@[simp] theorem issueFirst_events (w : CmdWord) (s : State) : (issueFirst w s).events = .command w :: s.events := rfl

@[simp] theorem issueFirst_responses (w : CmdWord) (s : State) : (issueFirst w s).responses = s.responses := rfl

end Sys2Proof.Machine
end

