-- ==== Sys2Proof/Laws/Ops.lean ====
section
/-! SUPPORT. One law for each shared operation, saying all it can do. -/

namespace Sys2Proof.Machine

theorem effectiveAddress_eq (off : BitVec 4) : effectiveAddress off = off.toNat := rfl

/-- The range check as arithmetic (20_memory.md R23). -/
theorem inRange_iff (off : BitVec 4) (n : Nat) : inRange off n = true ↔ off.toNat + n ≤ 8 := by
  rw [inRange, decide_eq_true_iff, effectiveAddress_eq]

/-- In range, an access takes its effect at the effective address. -/
theorem withAccess_inRange {off : BitVec 4} {n : Nat} (s : State) (effect : Nat → State) (h : off.toNat + n ≤ 8) :
    withAccess off n s effect = .next (effect off.toNat) := by
  rw [withAccess, if_pos ((inRange_iff off n).2 h), effectiveAddress_eq]

/-- Out of range, an access raises OffsetRange and has no other effect. -/
theorem withAccess_outOfRange {off : BitVec 4} {n : Nat} (s : State) (effect : Nat → State)
    (h : ¬ off.toNat + n ≤ 8) : withAccess off n s effect = .next (raiseFault .offsetRange s) := by
  rw [withAccess, if_neg (by rwa [inRange_iff])]

/-- An access answers a next state, one of two. -/
theorem withAccess_cases (off : BitVec 4) (n : Nat) (s : State) (effect : Nat → State) :
    (off.toNat + n ≤ 8 ∧ withAccess off n s effect = .next (effect off.toNat)) ∨
      (¬ off.toNat + n ≤ 8 ∧ withAccess off n s effect = .next (raiseFault .offsetRange s)) := by
  by_cases h : off.toNat + n ≤ 8
  · exact .inl ⟨h, withAccess_inRange s effect h⟩
  · exact .inr ⟨h, withAccess_outOfRange s effect h⟩

@[simp] theorem faultCode_ne_zero (cause : FaultCause) : faultCode cause ≠ 0#2 := by cases cause <;> decide

@[simp] theorem faultCode_ne_three (cause : FaultCause) : faultCode cause ≠ 3#2 := by cases cause <;> decide

theorem latchFault_of_zero (cause : FaultCause) : latchFault 0#2 cause = faultCode cause := rfl

theorem latchFault_of_ne {flt : BitVec 2} (cause : FaultCause) (h : flt ≠ 0#2) : latchFault flt cause = flt := by
  rw [latchFault, if_neg h]

theorem latchFault_ne_zero (flt : BitVec 2) (cause : FaultCause) : latchFault flt cause ≠ 0#2 := by
  unfold latchFault
  split <;> simp_all

theorem latchFault_ne_three {flt : BitVec 2} (cause : FaultCause) (h : flt ≠ 3#2) : latchFault flt cause ≠ 3#2 := by
  unfold latchFault
  split <;> simp_all

end Sys2Proof.Machine
end

