-- ==== Sys2Proof/Laws/Exec.lean ====
section
/-! SUPPORT. What a command and what a step can do, said once. -/

namespace Sys2Proof.Machine

/-! The commands with an address are accesses of their width -/

theorem exec_bufWr (off : BitVec 4) (b : Byte) (s : State) :
    exec (.bufWr off b) s =
      withAccess off 1 s (fun a => respondOk 0#32 (setBuf (Memory.writeBytes s.buf a [b]) s)) := rfl

theorem exec_bufRd (off : BitVec 4) (s : State) :
    exec (.bufRd off) s = withAccess off 1 s (fun a => respondOk (zextByte (Memory.read s.buf a)) s) := rfl

theorem exec_putI32 (off : BitVec 4) (v : Word) (s : State) :
    exec (.putI32 off v) s =
      withAccess off 4 s (fun a => respondOk 0#32 (setBuf (Memory.writeBytes s.buf a (bytesOfWord v)) s)) := rfl

theorem exec_putI16 (off : BitVec 4) (v : Half) (s : State) :
    exec (.putI16 off v) s =
      withAccess off 2 s (fun a => respondOk 0#32 (setBuf (Memory.writeBytes s.buf a (bytesOfHalf v)) s)) := rfl

theorem exec_getI32 (off : BitVec 4) (s : State) :
    exec (.getI32 off) s = withAccess off 4 s (fun a => respondOk (Memory.readWord s.buf a) s) := rfl

theorem exec_getI16 (off : BitVec 4) (s : State) :
    exec (.getI16 off) s = withAccess off 2 s (fun a => respondOk (sextHalf (Memory.readHalf s.buf a)) s) := rfl

/-- An OK answer `t` of the command `i` in `s`: what may have changed. -/
structure OkEffect (i : Instr) (s t : State) : Prop where
  answers : t.responses = s.responses ++ [⟨0#2, valueRead i s⟩]
  flt : t.flt = s.flt
  cfg : t.cfg = s.cfg
  events : t.events = s.events
  crc : writesCrc i = false → t.crc = s.crc
  buf : (∀ k, writesCell i k = false) → t.buf = s.buf
  cells : ∀ k, k < 8 → writesCell i k = false → Memory.read t.buf k = Memory.read s.buf k
  wf : Memory.wf s.buf = true → Memory.wf t.buf = true

/-- A command that stores bytes in range has an OK effect. -/
theorem okEffect_store {i : Instr} {s : State} {a : Nat} {bs : List Byte} (hv : valueRead i s = 0#32)
    (hw : ∀ k, writesCell i k = decide (a ≤ k ∧ k < a + bs.length)) (hbs : 0 < bs.length) (h : a + bs.length ≤ 8) :
    OkEffect i s (respondOk 0#32 (setBuf (Memory.writeBytes s.buf a bs) s)) where
  answers := by rw [hv]; rfl
  flt := rfl
  cfg := rfl
  events := rfl
  crc := fun _ => rfl
  buf := fun g => by
    have := g a
    rw [hw, decide_eq_false_iff_not] at this
    omega
  cells := fun k _ g => by
    rw [hw, decide_eq_false_iff_not] at g
    exact Memory.read_writeBytes_outside _ _ _ _ (by omega)
  wf := fun g => Memory.wf_writeBytes g h

/-- A command that only answers has an OK effect. -/
theorem okEffect_answer {i : Instr} {s : State} {d : Word} (h : valueRead i s = d) :
    OkEffect i s (respondOk d s) :=
  ⟨by rw [h]; rfl, rfl, rfl, rfl, fun _ => rfl, fun _ => rfl, fun _ _ _ => rfl, id⟩

/-- A command that sets the accumulator has an OK effect. -/
theorem okEffect_crc {i : Instr} {s : State} {v : Half} (hv : valueRead i s = 0#32) (h : writesCrc i = true) :
    OkEffect i s (respondOk 0#32 (setCrc v s)) :=
  ⟨by rw [hv]; rfl, rfl, rfl, rfl, fun g => by simp [h] at g, fun _ => rfl, fun _ _ _ => rfl, id⟩

/-- All a command can do: with its access in range it answers OK; out of range it raises OffsetRange. -/
theorem exec_cases (i : Instr) (s : State) :
    (accessLegal i = true ∧ ∃ t, exec i s = .next t ∧ OkEffect i s t) ∨
      (accessLegal i = false ∧ exec i s = .next (raiseFault .offsetRange s)) := by
  cases i with
  | crcInit => exact .inl ⟨rfl, _, rfl, okEffect_crc rfl rfl⟩
  | crcByte b => exact .inl ⟨rfl, _, rfl, okEffect_crc rfl rfl⟩
  | crcBuf => exact .inl ⟨rfl, _, rfl, okEffect_crc rfl rfl⟩
  | crcRd => exact .inl ⟨rfl, _, rfl, okEffect_answer rfl⟩
  | bufClr =>
    refine .inl ⟨rfl, _, rfl, rfl, rfl, rfl, rfl, fun _ => rfl, fun g => ?_, fun k hk g => ?_,
      fun _ => rfl⟩
    · simpa [writesCell] using g 0
    · simp [writesCell] at g
      omega
  | bufWr off b =>
    rw [exec_bufWr, accessLegal, accessOf]
    rcases withAccess_cases off 1 s _ with ⟨h, e⟩ | ⟨h, e⟩
    · exact .inl ⟨by simpa using h, _, e, okEffect_store rfl (fun k => decide_eq_decide.2 (by simp; omega)) (by simp) h⟩
    · exact .inr ⟨by simpa using h, e⟩
  | bufRd off =>
    rw [exec_bufRd, accessLegal, accessOf]
    rcases withAccess_cases off 1 s _ with ⟨h, e⟩ | ⟨h, e⟩
    · exact .inl ⟨by simpa using h, _, e, okEffect_answer rfl⟩
    · exact .inr ⟨by simpa using h, e⟩
  | putI32 off v =>
    rw [exec_putI32, accessLegal, accessOf]
    rcases withAccess_cases off 4 s _ with ⟨h, e⟩ | ⟨h, e⟩
    · exact .inl ⟨by simpa using h, _, e, okEffect_store rfl (fun k => rfl) (by simp [bytesOfWord]) h⟩
    · exact .inr ⟨by simpa using h, e⟩
  | putI16 off v =>
    rw [exec_putI16, accessLegal, accessOf]
    rcases withAccess_cases off 2 s _ with ⟨h, e⟩ | ⟨h, e⟩
    · exact .inl ⟨by simpa using h, _, e, okEffect_store rfl (fun k => rfl) (by simp [bytesOfHalf]) h⟩
    · exact .inr ⟨by simpa using h, e⟩
  | getI32 off =>
    rw [exec_getI32, accessLegal, accessOf]
    rcases withAccess_cases off 4 s _ with ⟨h, e⟩ | ⟨h, e⟩
    · exact .inl ⟨by simpa using h, _, e, okEffect_answer rfl⟩
    · exact .inr ⟨by simpa using h, e⟩
  | getI16 off =>
    rw [exec_getI16, accessLegal, accessOf]
    rcases withAccess_cases off 2 s _ with ⟨h, e⟩ | ⟨h, e⟩
    · exact .inl ⟨by simpa using h, _, e, okEffect_answer rfl⟩
    · exact .inr ⟨by simpa using h, e⟩

/-- A step on a command word performs what the word decodes to, the event taken. -/
theorem step_command {s : State} {w : CmdWord} {rest : List Event} (h : s.events = .command w :: rest) :
    step s = performDecoded (decode w) { s with events := rest } := by
  simp only [step, h, acceptEvent, performWord]
  simp [dropEvent, h]

/-- A step on the reset event resets, the event taken. -/
theorem step_reset {s : State} {rest : List Event} (h : s.events = .reset :: rest) :
    step s = .next (applyReset { s with events := rest }) := by
  simp only [step, h, acceptEvent]
  simp [dropEvent, h]

/-- A run of one step more, once the first step is known. -/
theorem run_succ {s t : State} {n : Nat} (h : step s = .next t) :
    Sys2Proof.core.run (n + 1) s = Sys2Proof.core.run n t := by
  have h' : Sys2Proof.core.step s = .next t := h
  simp only [Host.Core.run]
  rw [h']

end Sys2Proof.Machine
end

