-- ==== Sys2Proof/Laws/PerInstr.lean ====
section
/-! SUPPORT. For every command: its word is a word of its own row of the opcode map, whatever its operands (30_encoding.md
R38). -/

namespace Sys2Proof.Laws.EncodedRow

/-- The command's word has its row's fixed bits. -/
def Statement (i : Instr) : Prop := i.row.matchesWord (encode i) = true

/-- A word with its row's fixed bits, bit by bit. -/
theorem matches_of_bits {row : OpcodeRow} {w : CmdWord}
    (h : ∀ i < 40, (w.getLsbD i && row.mask.getLsbD i) = row.pattern.getLsbD i) : row.matchesWord w = true := by
  rw [OpcodeRow.matchesWord, beq_iff_eq]
  apply BitVec.eq_of_getLsbD_eq
  intro i hi
  rw [BitVec.getLsbD_and, h i hi]

theorem crcInit : Statement .crcInit := by
  unfold Statement
  decide

theorem crcByte (b : Byte) : Statement (.crcByte b) := by
  apply matches_of_bits
  intro i hi
  simp only [encode, getLsbD_packFields, Instr.row]
  interval_cases i <;> simp

theorem crcBuf : Statement .crcBuf := by
  unfold Statement
  decide

theorem crcRd : Statement .crcRd := by
  unfold Statement
  decide

theorem bufClr : Statement .bufClr := by
  unfold Statement
  decide

theorem bufWr (off : BitVec 4) (b : Byte) : Statement (.bufWr off b) := by
  apply matches_of_bits
  intro i hi
  simp only [encode, getLsbD_packFields, Instr.row]
  interval_cases i <;> simp

theorem bufRd (off : BitVec 4) : Statement (.bufRd off) := by
  apply matches_of_bits
  intro i hi
  simp only [encode, getLsbD_packFields, Instr.row]
  interval_cases i <;> simp

theorem putI32 (off : BitVec 4) (v : Word) : Statement (.putI32 off v) := by
  apply matches_of_bits
  intro i hi
  simp only [encode, getLsbD_packFields, Instr.row]
  interval_cases i <;> simp

theorem putI16 (off : BitVec 4) (v : Half) : Statement (.putI16 off v) := by
  apply matches_of_bits
  intro i hi
  simp only [encode, getLsbD_packFields, Instr.row]
  interval_cases i <;> simp

theorem getI32 (off : BitVec 4) : Statement (.getI32 off) := by
  apply matches_of_bits
  intro i hi
  simp only [encode, getLsbD_packFields, Instr.row]
  interval_cases i <;> simp

theorem getI16 (off : BitVec 4) : Statement (.getI16 off) := by
  apply matches_of_bits
  intro i hi
  simp only [encode, getLsbD_packFields, Instr.row]
  interval_cases i <;> simp

end Sys2Proof.Laws.EncodedRow
end

