-- ==== Sys2Proof/Tests/Slice0.lean ====
section
/-! SUPPORT. Tests, their expected values taken from 95_test_vectors.md and the examples of the rules, and one witness for
the hypotheses of each statement that has any. -/

namespace Sys2Proof.Tests

open Sys2Proof.Machine

/-- The reset state with these values in place. -/
def small (crc : Half) (buf : Memory) (flt : BitVec 2) : State := { State.reset with crc := crc, buf := buf, flt := flt }

/-- The state with these words issued. -/
def issued (ws : List CmdWord) (s : State) : State := { s with events := ws.map .command }

/-- A next state with these values, and this last response. -/
def ends (o : Host.Outcome State Fault Refusal) (crc : Half) (buf : Memory) (flt : BitVec 2) (status : BitVec 2)
    (data : Word) : Bool :=
  match o with
  | .next t => t.crc == crc && t.buf == buf && t.flt == flt && t.responses.getLast? == some ⟨status, data⟩
  | .fault _ => false
  | .refused _ => false

/-- The buffer of part 2.5 of the vectors, 78 56 34 12 00 00 00 00. -/
def faultBuf : Memory := [(0, 0x78#8), (1, 0x56#8), (2, 0x34#8), (3, 0x12#8)]

/-- The buffer of V34, E8 03 00 00 F4 01 00 00. -/
def moveBuf : Memory := [(0, 0xE8#8), (1, 0x03#8), (4, 0xF4#8), (5, 0x01#8)]

/-! Decoding (V1 to V19) -/

theorem test_decode_commands :
    decode 0x1000000000#40 = .command .crcInit ∧ decode 0x20000000FF#40 = .command (.crcByte 0xFF#8) ∧
    decode 0x3000000000#40 = .command .crcBuf ∧ decode 0x4000000000#40 = .command .crcRd ∧
    decode 0x5000000000#40 = .command .bufClr ∧ decode 0x67000000FF#40 = .command (.bufWr 7#4 0xFF#8) ∧
    decode 0x6F00000000#40 = .command (.bufWr 15#4 0x00#8) ∧ decode 0x7700000000#40 = .command (.bufRd 7#4) ∧
    decode 0x84FFFFFFFF#40 = .command (.putI32 4#4 0xFFFFFFFF#32) ∧
    decode 0x960000FFFF#40 = .command (.putI16 6#4 0xFFFF#16) ∧ decode 0xA400000000#40 = .command (.getI32 4#4) ∧
    decode 0xB600000000#40 = .command (.getI16 6#4) := by
  decide

/-- One word a family, its bits written out field by field (R35, R38). -/
theorem test_decode_bits :
    decode 0b0010000000000000000000000000000000110001#40 = .command (.crcByte 0x31#8) ∧
    decode 0b0110001000000000000000000000000000110010#40 = .command (.bufWr 2#4 0x32#8) ∧
    decode 0b1001000000000000000000001111100011111000#40 = .command (.putI16 0#4 0xF8F8#16) ∧
    decode 0b1011000100000000000000000000000000000000#40 = .command (.getI16 1#4) := by
  decide

theorem test_decode_reserved :
    [0x0000000000#40, 0xC000000000#40, 0xD000000000#40, 0xE000000000#40, 0xF123456789#40].map decode =
      List.replicate 5 (.illegal .reservedOpcode) := by
  decide

theorem test_decode_stray :
    [0x1000000001#40, 0x1100000000#40, 0x3000000100#40, 0x4F00000000#40, 0x5000010000#40, 0x2000000131#40,
      0x2100000031#40, 0x6200000132#40, 0x7000000001#40, 0xA000000001#40, 0xB080000000#40, 0x96FFFFFFFF#40,
      0x9000010384#40, 0x9900010000#40].map decode = List.replicate 14 (.illegal .strayBits) := by
  decide

/-- The numbering of the opcode table (log entry 12). -/
theorem test_decodeTableWord :
    decodeTableWord 40 0x84000001F4 = some (.putI32 4#4 500#32) ∧ decodeTableWord 40 0xC000000000 = none := by
  decide

/-- The host's probe: the word is performed by the very next step. -/
theorem test_withFetchWord :
    ends (step (State.reset.withFetchWord 40 0x80000003E8)) 0#16 [(0, 0xE8#8), (1, 0x03#8)] 0#2 0#2 0#32 = true := by
  decide

/-! Well-formedness: an ill-formed word for each row's mask, and a line for each range of R43 -/

theorem test_wellFormedWord_refuses :
    [0x0000000000#40, 0x1000000001#40, 0x2000000131#40, 0x3000000100#40, 0x4F00000000#40, 0x5000010000#40,
      0x6200000132#40, 0x7000000001#40, 0x96FFFFFFFF#40, 0xA000000001#40, 0xB080000000#40, 0xC000000000#40].map
        wellFormedWord = List.replicate 12 false ∧
    wellFormedWord 0x8FFFFFFFFF#40 = true := by
  decide

theorem test_line_refused :
    [AsmLine.crcByte 256, .bufWr 16 0, .bufWr 0 256, .bufRd 16, .putI32 16 0, .putI32 0 (-2147483649),
      .putI32 0 4294967296, .putI16 16 0, .putI16 0 (-32769), .putI16 0 65536, .getI32 16, .getI16 16, .cksum [0, 256],
      .load8 [1, 2, 3], .load8 [0, 0, 0, 0, 0, 0, 0, 256]].map AsmLine.fits = List.replicate 15 false := by
  decide

/-- R43: a comment, a stated response, a pseudo-command of R44, and texts that are errors. -/
theorem test_assembler_text :
    assembleText "PUT_I16 0, -1800 ; c = -180" = some [0x900000F8F8#40] ∧
    assembleText "-> (0, 0x0000D4ED)" = some [] ∧
    assembleText "CKSUM 0x31, 50" = some [0x1000000000#40, 0x2000000031#40, 0x2000000032#40, 0x4000000000#40] ∧
    assembleText "CKSUM" = some [0x1000000000#40, 0x4000000000#40] ∧
    assembleText "BUF_WR 0, -1" = none ∧ assembleText "CRC_BYTE 256" = none ∧ assembleText "NOP" = none := by
  decide

/-! Functions (V20 to V32) -/

theorem test_checksum_vectors :
    checksum tableCcitt [0x80#8] = 0x9188#16 ∧ checksum tableCcitt [0xFF#8] = 0x1EF0#16 ∧
    checksum tableCcitt [0x01#8, 0x00#8] = 0x3331#16 ∧ checksum tableCcitt [0xA5#8, 0x5A#8] = 0x1934#16 := by
  decide

theorem test_checksum_check_value :
    checksum tableCcitt [0x31#8, 0x32#8, 0x33#8, 0x34#8, 0x35#8, 0x36#8, 0x37#8, 0x38#8, 0x39#8] = 0x31C3#16 := by
  decide

/-- S3, S5 and V45, V36: the payloads of the document's scenarios. -/
theorem test_payload_bytes :
    payloadBytes .home = [1, 0, 0, 0, 0, 0, 0, 0] ∧
    payloadBytes (.moveRotation (patternHalf 900) .n1) = [0x84, 0x03, 0x32, 0x01, 0, 0, 0, 0] ∧
    payloadBytes (.moveZ (patternHalf 12000) .n1) = [0xE0, 0x2E, 0x32, 0x01, 0, 0, 0, 0] ∧
    payloadBytes (.moveXY (patternWord (-43700)) (patternWord 43700)) =
      [0x4C, 0x55, 0xFF, 0xFF, 0xB4, 0xAA, 0x00, 0x00] ∧
    payloadBytes (.lightsUp 1#8) = [0, 0, 0, 0, 1, 0, 0, 0] := by
  decide

/-! Commands, each by one step -/

/-- V50. -/
theorem test_crcInit :
    ends (step (issued [0x1000000000#40] (small 0x31C3#16 faultBuf 0#2))) 0#16 faultBuf 0#2 0#2 0#32 = true := by
  decide

/-- V52. -/
theorem test_crcByte :
    ends (step (issued [0x2000000032#40] (small 0x2672#16 [] 0#2))) 0x20B5#16 [] 0#2 0#2 0#32 = true := by
  decide

set_option maxRecDepth 4000 in
/-- V54: the old accumulator is ignored. -/
theorem test_crcBuf :
    ends (step (issued [0x3000000000#40] (small 0xFFFF#16 moveBuf 0#2))) 0xD4ED#16 moveBuf 0#2 0#2 0#32 = true := by
  decide

/-- V53: not cleared, not sign-extended. -/
theorem test_crcRd :
    ends (step (issued [0x4000000000#40] (small 0xD4ED#16 [] 0#2))) 0xD4ED#16 [] 0#2 0#2 0x0000D4ED#32 = true := by
  decide

/-- V70. -/
theorem test_bufClr :
    ends (step (issued [0x5000000000#40] (small 1#16 moveBuf 0#2))) 1#16 [] 0#2 0#2 0#32 = true := by
  decide

/-- V71, and a cell written back to 0. -/
theorem test_bufWr :
    ends (step (issued [0x6200000032#40] (small 0#16 [] 0#2))) 0#16 [(2, 0x32#8)] 0#2 0#2 0#32 = true ∧
    ends (step (issued [0x6000000000#40] (small 0#16 [(0, 1#8), (7, 2#8)] 0#2))) 0#16 [(7, 2#8)] 0#2 0#2 0#32 = true := by
  decide

/-- V72, V84. -/
theorem test_bufRd :
    ends (step (issued [0x7700000000#40] (small 0#16 [(7, 0xFF#8)] 0#2))) 0#16 [(7, 0xFF#8)] 0#2 0#2 0xFF#32 = true ∧
    ends (step (issued [0x7800000000#40] (small 0#16 faultBuf 0#2))) 0#16 faultBuf 2#2 2#2 0#32 = true := by
  decide

/-- V60: misaligned. -/
theorem test_putI32_misaligned :
    ends (step (issued [0x8112345678#40] (small 0#16 [] 0#2))) 0#16
      [(1, 0x78#8), (2, 0x56#8), (3, 0x34#8), (4, 0x12#8)] 0#2 0#2 0#32 = true := by
  decide

/-- V80 and V81: no byte written, then the nearest accepted. -/
theorem test_putI32_range :
    ends (step (issued [0x857FFFFFFF#40] (small 0#16 faultBuf 0#2))) 0#16 faultBuf 2#2 2#2 0#32 = true ∧
    ends (step (issued [0x847FFFFFFF#40] (small 0#16 faultBuf 0#2))) 0#16
      (faultBuf ++ [(4, 0xFF#8), (5, 0xFF#8), (6, 0xFF#8), (7, 0x7F#8)]) 0#2 0#2 0#32 = true := by
  decide

/-- V61: the later write wins, byte by byte. -/
theorem test_putI16_overlap :
    ends (step (issued [0x930000ABCD#40] (small 0#16 [(1, 0x78#8), (2, 0x56#8), (3, 0x34#8), (4, 0x12#8)] 0#2))) 0#16
      [(1, 0x78#8), (2, 0x56#8), (3, 0xCD#8), (4, 0xAB#8)] 0#2 0#2 0#32 = true := by
  decide

/-- V82 and V83. -/
theorem test_putI16_range :
    ends (step (issued [0x9700000001#40] (small 0#16 faultBuf 0#2))) 0#16 faultBuf 2#2 2#2 0#32 = true ∧
    ends (step (issued [0x9600000001#40] (small 0#16 faultBuf 0#2))) 0#16 (faultBuf ++ [(6, 1#8)]) 0#2 0#2 0#32 = true := by
  decide

/-- V41. -/
theorem test_getI32 :
    ends (step (issued [0xA000000000#40] (small 0#16 [(0, 0x4C#8), (1, 0x55#8), (2, 0xFF#8), (3, 0xFF#8)] 0#2))) 0#16
      [(0, 0x4C#8), (1, 0x55#8), (2, 0xFF#8), (3, 0xFF#8)] 0#2 0#2 0xFFFF554C#32 = true := by
  decide

/-- V46 and V48: sign-extended, at the first and the last legal address. -/
theorem test_getI16 :
    ends (step (issued [0xB000000000#40] (small 0#16 [(0, 0xF8#8), (1, 0xF8#8)] 0#2))) 0#16 [(0, 0xF8#8), (1, 0xF8#8)]
      0#2 0#2 0xFFFFF8F8#32 = true ∧
    ends (step (issued [0xB600000000#40] (small 0#16 [(7, 0x80#8)] 0#2))) 0#16 [(7, 0x80#8)]
      0#2 0#2 0xFFFF8000#32 = true := by
  decide

/-! Faults and reset -/

/-- V90, V93: an illegal word, and one that is out of range too. -/
theorem test_illegal :
    ends (step (issued [0x0000000000#40] (small 0#16 faultBuf 0#2))) 0#16 faultBuf 1#2 1#2 0#32 = true ∧
    ends (step (issued [0x9900010000#40] (small 0#16 faultBuf 0#2))) 0#16 faultBuf 1#2 1#2 0#32 = true := by
  decide

/-- V95, its second fault: the first is kept, and the response has the second's own code. -/
theorem test_second_fault :
    ends (step (issued [0x0000000000#40] (small 0#16 faultBuf 2#2))) 0#16 faultBuf 2#2 1#2 0#32 = true := by
  decide

/-- V98. -/
theorem test_reset :
    (match step { small 0xD4ED#16 moveBuf 2#2 with events := [.reset] } with
      | .next t => t.crc == 0#16 && t.buf == [] && t.flt == 0#2 && t.events == [] && t.responses == []
      | .fault _ => false
      | .refused _ => false) = true := by
  decide

/-! Witnesses: for each statement with hypotheses, values that meet them, at the boundaries of its clauses -/

theorem witness_EncodeOfDecodeIsTheWord : decode 0x8FFFFFFFFF#40 = .command (.putI32 15#4 0xFFFFFFFF#32) := by decide

theorem witness_WordIsOfARowExactlyWhenItMatches :
    (⟨"PUT_I16", 0x9000000000#40, 0xF0FFFF0000#40⟩ : OpcodeRow) ∈ opcodeRows ∧
    0x9F0000FFFF#40 &&& 0xF0FFFF0000#40 = 0x9000000000#40 ∧
    wellFormedWord 0x9F0000FFFF#40 = true ∧ opField 0x0FFFFFFFFF#40 = 0x0#4 ∧ 0xC#4 ≤ opField 0xC000000000#40 ∧ 0xC#4 ≤ opField 0xFFFFFFFFFF#40 := by
  decide

theorem witness_StrayBitRaisesIllegalCommand :
    (issued [0x9900010000#40] State.reset).events = .command 0x9900010000#40 :: [] ∧
    (⟨"PUT_I16", 0x9000000000#40, 0xF0FFFF0000#40⟩ : OpcodeRow) ∈ opcodeRows ∧
    opField 0x9900010000#40 = opField 0x9000000000#40 ∧
    0x9900010000#40 &&& 0xF0FFFF0000#40 ≠ 0x9000000000#40 := by
  decide

theorem witness_ReservedOpcodeRaisesIllegalCommand :
    (issued [0xF123456789#40] State.reset).events = .command 0xF123456789#40 :: [] ∧
    opField 0xF123456789#40 = 0xF#4 ∧ opField 0x0000000001#40 = 0x0#4 ∧ opField 0xC000000000#40 = 0xC#4 ∧
    opField 0xD000000000#40 = 0xD#4 ∧ opField 0xE000000000#40 = 0xE#4 ∧
    (issued [0x0000000000#40] State.reset).events = .command 0x0000000000#40 :: [] := by
  decide

theorem witness_AssemblerNeverTruncates :
    (assemble (.crcByte 255) = some [.crcByte 0xFF#8] ∧ assemble (.crcByte 256) = none) ∧
    (assemble (.bufWr 15 255) = some [.bufWr 15#4 0xFF#8] ∧ assemble (.bufWr 0 256) = none) ∧
    (assemble (.getI16 15) = some [.getI16 15#4] ∧ assemble (.bufRd 16) = none) ∧
    (assemble (.putI16 15 (-32768)) = some [.putI16 15#4 0x8000#16] ∧
      assemble (.putI16 0 65535) = some [.putI16 0#4 0xFFFF#16] ∧ assemble (.putI16 0 65536) = none) ∧
    (assemble (.putI32 15 (-2147483648)) = some [.putI32 15#4 0x80000000#32] ∧
      assemble (.putI32 0 4294967295) = some [.putI32 0#4 0xFFFFFFFF#32] ∧ assemble (.putI32 16 0) = none) ∧
    (assemble (.cksum [255]) = some [.crcInit, .crcByte 0xFF#8, .crcRd] ∧ assemble (.cksum [0, 256]) = none) ∧
    (assemble (.load8 [1, 2, 3, 4, 5, 6, 7, 255]) =
      some (expandLoad 0#4 [1#8, 2#8, 3#8, 4#8, 5#8, 6#8, 7#8, 255#8]) ∧
      assemble (.load8 [1, 2, 3]) = none ∧ assemble (.load8 [0, 0, 0, 0, 0, 0, 0, 256]) = none) := by
  decide

theorem witness_StepPerformsTheDecodedCommand :
    (issued [0x2000000031#40, 0x4000000000#40] State.reset).events =
      .command 0x2000000031#40 :: [.command 0x4000000000#40] ∧
    decode 0x2000000031#40 = .command (.crcByte 0x31#8) := by
  decide

theorem witness_StepWithNothingIssuedChangesNothing : State.reset.events = [] := rfl

theorem witness_EveryCommandGetsOneResponse :
    (issued [0xA400000000#40] (small 0#16 moveBuf 0#2)).events = .command 0xA400000000#40 :: [] ∧
    valueRead (.getI32 4#4) (small 0#16 moveBuf 0#2) = 500#32 := by
  decide

/-- An illegal word, an access one byte too far, and one that just fits. -/
theorem witness_FaultsExactlyWhenIllegalOrOutOfRange :
    (issued [0x9900010000#40] State.reset).events = .command 0x9900010000#40 :: [] ∧
    decode 0x9900010000#40 = .illegal .strayBits ∧
    decode 0xB700000000#40 = .command (.getI16 7#4) ∧ accessOf (.getI16 7#4) = some (7#4, 2) ∧ 8 < (7#4).toNat + 2 ∧
    decode 0xB600000000#40 = .command (.getI16 6#4) ∧ accessLegal (.getI16 6#4) = true := by
  decide

theorem witness_FaultLeavesAllButTheRecord :
    ∃ t r, (issued [0x8500000000#40] State.reset).events = .command 0x8500000000#40 :: [] ∧
      step (issued [0x8500000000#40] State.reset) = .next t ∧
      t.responses = (issued [0x8500000000#40] State.reset).responses ++ [r] ∧ r.status ≠ 0#2 :=
  ⟨_, ⟨2#2, 0#32⟩, rfl, rfl, rfl, by decide⟩

theorem witness_RecordedFaultGatesNothing :
    ∃ t, (issued [0xA000000000#40] (small 0#16 faultBuf 2#2)).events = .command 0xA000000000#40 :: [] ∧
      (issued [0xA000000000#40] (small 0#16 faultBuf 2#2)).flt ≠ 0#2 ∧
      step (issued [0xA000000000#40] (small 0#16 faultBuf 2#2)) = .next t ∧
      ({ State.reset with events := [.reset], flt := 2#2 } : State).events = .reset :: [] :=
  ⟨_, rfl, by decide, rfl, rfl⟩

/-- V95's two words: from a state with no fault recorded. -/
theorem witness_FirstFaultIsTheOneRecorded :
    (issued [0x8500000000#40, 0x0000000000#40] State.reset).events =
      [0x8500000000#40, 0x0000000000#40].map .command ++ [] ∧
    firstFault [⟨2#2, 0#32⟩, ⟨1#2, 0#32⟩] = 2#2 ∧ firstFault [⟨0#2, 7#32⟩] = 0#2 := by
  decide

theorem witness_ResetEventClearsTheState :
    ∃ t, ({ State.reset with events := [.reset] } : State).events = .reset :: [] ∧
      (issued [0x5000000000#40] (small 0#16 moveBuf 1#2)).events = .command 0x5000000000#40 :: [] ∧
      (issued [0x5000000000#40] (small 0#16 moveBuf 1#2)).flt ≠ 0#2 ∧
      step (issued [0x5000000000#40] (small 0#16 moveBuf 1#2)) = .next t :=
  ⟨_, rfl, rfl, by decide, rfl⟩

theorem witness_EveryStepKeepsTheInvariant :
    ∃ t, (issued [0x67000000FF#40] (small 0#16 moveBuf 2#2)).Inv ∧
      step (issued [0x67000000FF#40] (small 0#16 moveBuf 2#2)) = .next t :=
  ⟨_, ⟨by decide, by decide, by simp [issued, small, State.reset]⟩, rfl⟩

theorem witness_TableIsNeverWritten :
    ∃ t, step { State.reset with events := [.reset] } = .next t := ⟨_, rfl⟩

theorem witness_CommandsWriteOnlyTheirColumns :
    writesCrc (.putI16 6#4 1#16) = false ∧ writesCell (.putI16 6#4 1#16) 5 = false ∧
    writesCell (.putI16 6#4 1#16) 6 = true ∧ writesCell (.putI16 6#4 1#16) 7 = true ∧
    (∀ k, writesCell (.getI32 4#4) k = false) :=
  ⟨rfl, rfl, rfl, rfl, fun _ => rfl⟩

/-- BUF_RD 7 in two states that agree on cell 7 and differ in the accumulator, another cell and the record. -/
theorem witness_CommandsReadOnlyTheirColumns :
    (readsCrc (.bufRd 7#4) = true → (small 1#16 [(0, 1#8), (7, 9#8)] 0#2).crc = (small 2#16 [(7, 9#8)] 1#2).crc) ∧
    (readsTable (.bufRd 7#4) = true →
      (small 1#16 [(0, 1#8), (7, 9#8)] 0#2).cfg = (small 2#16 [(7, 9#8)] 1#2).cfg) ∧
    (∀ k, readsCell (.bufRd 7#4) k = true →
      Memory.read (small 1#16 [(0, 1#8), (7, 9#8)] 0#2).buf k = Memory.read (small 2#16 [(7, 9#8)] 1#2).buf k) := by
  refine ⟨fun _ => by contradiction, fun _ => rfl, fun k hk => ?_⟩
  obtain rfl : k = 7 := by simpa [readsCell] using hk
  rfl

theorem witness_CrcInitStartsAChecksum :
    opField 0x1100000000#40 = 0x1#4 ∧ offField 0x1100000000#40 ≠ 0#4 ∧
    opField 0x1000000001#40 = 0x1#4 ∧ dataField 0x1000000001#40 ≠ 0#32 := by
  decide

theorem witness_CrcByteFoldsOneByte :
    opField 0x2100000031#40 = 0x2#4 ∧ offField 0x2100000031#40 ≠ 0#4 ∧
    opField 0x2000000131#40 = 0x2#4 ∧ (dataField 0x2000000131#40).extractLsb' 8 24 ≠ 0#24 ∧
    (small 0x2672#16 [] 0#2).cfg.table = tableCcitt ∧ (small 0x2672#16 [] 0#2).crc = 0x2672#16 :=
  ⟨by decide, by decide, by decide, by decide, rfl, rfl⟩

theorem witness_CrcBufChecksumsTheBuffer :
    tableRead State.reset.cfg.table 0x00#8 = 0x0000#16 ∧ (∀ k, k < 8 → Memory.read State.reset.buf k = 0x00#8) ∧
    opField 0x3000000100#40 = 0x3#4 ∧ dataField 0x3000000100#40 ≠ 0#32 ∧
    opField 0x3F00000000#40 = 0x3#4 ∧ offField 0x3F00000000#40 ≠ 0#4 ∧
    (small 0#16 moveBuf 0#2).cfg.table = tableCcitt ∧
    Memory.payload (small 0#16 moveBuf 0#2).buf =
      [0xE8#8, 0x03#8, 0x00#8, 0x00#8, 0xF4#8, 0x01#8, 0x00#8, 0x00#8] :=
  ⟨by decide, fun _ _ => rfl, by decide, by decide, by decide, by decide, rfl, by decide⟩

theorem witness_CrcRdReadsTheAccumulator :
    opField 0x4F00000000#40 = 0x4#4 ∧ offField 0x4F00000000#40 ≠ 0#4 ∧
    opField 0x4000000001#40 = 0x4#4 ∧ dataField 0x4000000001#40 ≠ 0#32 := by
  decide

/-- Clause (e): two accumulators with one low byte, and bytes that give one index. -/
theorem witness_ChecksumLawsForEveryTable :
    (0x00#8 ^^^ (0x1234#16).extractLsb' 8 8 = 0x12#8 ^^^ (0x0034#16).extractLsb' 8 8) ∧
    (0x1234#16).extractLsb' 0 8 = (0x0034#16).extractLsb' 0 8 := by
  decide

/-- The words are ones R59 lets stand in a stream. -/
theorem keepsStream_words :
    (∀ w ∈ [0x2000000031#40], keepsStream (decode w) = true) ∧
    (∀ w ∈ [0x5000000000#40, 0x2000000031#40, 0xF123456789#40], keepsStream (decode w) = true) ∧
    (∀ w ∈ [0x2000000031#40, 0x8000000007#40, 0x0000000000#40, 0x2000000032#40], keepsStream (decode w) = true) := by
  refine ⟨?_, ?_, ?_⟩ <;> simp only [List.forall_mem_cons] <;> simp <;> decide

/-- V57's stream, with a faulting word in it. -/
theorem witness_StreamedBytesGiveTheirChecksum :
    (∀ w ∈ [0x2000000031#40, 0x8000000007#40, 0x0000000000#40, 0x2000000032#40], keepsStream (decode w) = true) ∧
    (issued [0x1000000000#40, 0x2000000031#40, 0x8000000007#40, 0x0000000000#40, 0x2000000032#40, 0x4000000000#40]
        State.reset).events =
      .command 0x1000000000#40 ::
        ([0x2000000031#40, 0x8000000007#40, 0x0000000000#40, 0x2000000032#40].map .command ++
          .command 0x4000000000#40 :: []) :=
  ⟨keepsStream_words.2.2, rfl⟩

/-- The same stream after a reset. -/
theorem witness_StreamedBytesGiveTheirChecksum_reset :
    (∀ w ∈ [0x2000000031#40], keepsStream (decode w) = true) ∧
    { small 0xD4ED#16 moveBuf 2#2 with
        events := [.reset, .command 0x2000000031#40, .command 0x4000000000#40] }.events =
      .reset :: ([0x2000000031#40].map .command ++ .command 0x4000000000#40 :: []) :=
  ⟨keepsStream_words.1, rfl⟩

/-- One byte folded after a CRC_INIT in one state, and after a reset, with other commands between, in another. -/
theorem witness_CrcRdDependsOnTheFoldedBytesAlone_starts :
    (issued [0x1000000000#40, 0x2000000031#40, 0x4000000000#40] (small 1#16 moveBuf 0#2)).cfg =
      (small 2#16 [] 1#2).cfg ∧
    (∀ w ∈ [0x2000000031#40], keepsStream (decode w) = true) ∧
    (∀ w ∈ [0x5000000000#40, 0x2000000031#40, 0xF123456789#40], keepsStream (decode w) = true) ∧
    [0x2000000031#40].flatMap (fun w => foldedBytes (decode w)) =
      [0x5000000000#40, 0x2000000031#40, 0xF123456789#40].flatMap (fun w => foldedBytes (decode w)) ∧
    (issued [0x1000000000#40, 0x2000000031#40, 0x4000000000#40] (small 1#16 moveBuf 0#2)).events =
      .command 0x1000000000#40 :: ([0x2000000031#40].map .command ++ .command 0x4000000000#40 :: []) ∧
    { small 2#16 [] 1#2 with
        events := [.reset, .command 0x5000000000#40, .command 0x2000000031#40, .command 0xF123456789#40,
          .command 0x4000000000#40] }.events =
      .reset ::
        ([0x5000000000#40, 0x2000000031#40, 0xF123456789#40].map .command ++ .command 0x4000000000#40 :: []) :=
  ⟨rfl, keepsStream_words.1, keepsStream_words.2.1, rfl, rfl, rfl⟩

/-- One byte folded after a CRC_BUF in two states with one buffer, in the second with other commands between. -/
theorem witness_CrcRdDependsOnTheFoldedBytesAlone :
    (small 1#16 moveBuf 0#2).cfg = (small 2#16 moveBuf 1#2).cfg ∧
    Memory.payload (small 1#16 moveBuf 0#2).buf = Memory.payload (small 2#16 moveBuf 1#2).buf ∧
    (∀ w ∈ [0x2000000031#40], keepsStream (decode w) = true) ∧
    (∀ w ∈ [0x5000000000#40, 0x2000000031#40, 0xF123456789#40], keepsStream (decode w) = true) ∧
    [0x2000000031#40].flatMap (fun w => foldedBytes (decode w)) =
      [0x5000000000#40, 0x2000000031#40, 0xF123456789#40].flatMap (fun w => foldedBytes (decode w)) ∧
    (issued [0x3000000000#40, 0x2000000031#40, 0x4000000000#40] (small 1#16 moveBuf 0#2)).events =
      .command 0x3000000000#40 :: ([0x2000000031#40].map .command ++ .command 0x4000000000#40 :: []) ∧
    (issued [0x3000000000#40, 0x5000000000#40, 0x2000000031#40, 0xF123456789#40, 0x4000000000#40]
        (small 2#16 moveBuf 1#2)).events =
      .command 0x3000000000#40 ::
        ([0x5000000000#40, 0x2000000031#40, 0xF123456789#40].map .command ++ .command 0x4000000000#40 :: []) :=
  ⟨rfl, rfl, keepsStream_words.1, keepsStream_words.2.1, rfl, rfl, rfl⟩

theorem witness_BufClrZeroesTheBuffer :
    opField 0x5000010000#40 = 0x5#4 ∧ dataField 0x5000010000#40 ≠ 0#32 ∧
    opField 0x5100000000#40 = 0x5#4 ∧ offField 0x5100000000#40 ≠ 0#4 := by
  decide

theorem witness_BufWrStoresOneByte :
    (7#4).toNat ≤ 7 ∧ effectiveAddress 7#4 = 7 ∧ 7 < (8#4).toNat ∧ opField 0x6200000132#40 = 0x6#4 ∧
    (dataField 0x6200000132#40).extractLsb' 8 24 ≠ 0#24 := by
  decide

theorem witness_BufRdReadsOneByte :
    (7#4).toNat ≤ 7 ∧ 7 < (8#4).toNat ∧ opField 0x7000000001#40 = 0x7#4 ∧ dataField 0x7000000001#40 ≠ 0#32 := by
  decide

theorem witness_PutI32StoresFourBytes :
    (4#4).toNat ≤ 4 ∧ effectiveAddress 4#4 = 4 ∧ 4 < (5#4).toNat ∧ opField 0x8FFFFFFFFF#40 = 0x8#4 := by
  decide

theorem witness_PutI16StoresTwoBytes :
    (6#4).toNat ≤ 6 ∧ effectiveAddress 6#4 = 6 ∧ 6 < (7#4).toNat ∧ opField 0x96FFFFFFFF#40 = 0x9#4 ∧
    (dataField 0x96FFFFFFFF#40).extractLsb' 16 16 ≠ 0#16 := by
  decide

theorem witness_GetI32ReadsFourBytes :
    (4#4).toNat ≤ 4 ∧ 4 < (5#4).toNat ∧ opField 0xA000000001#40 = 0xA#4 ∧ dataField 0xA000000001#40 ≠ 0#32 := by
  decide

theorem witness_GetI16ReadsTwoBytesSigned :
    (6#4).toNat ≤ 6 ∧ 6 < (7#4).toNat ∧ opField 0xB080000000#40 = 0xB#4 ∧ dataField 0xB080000000#40 ≠ 0#32 := by
  decide

/-- The rule's own reads, and a later byte written over one of the cells. -/
theorem witness_MixedWidthsSeeTheSameBytes :
    Memory.writeBytes [] 0 (bytesOfWord 0x12345678#32) = faultBuf ∧
    (3 ≤ 4 ∧ 4 < 3 + [0xCD#8, 0xAB#8].length) ∧ [0xCD#8, 0xAB#8].getD (4 - 3) 0x00#8 = 0xAB#8 := by
  decide

/-- Commands between that write right beside the field, and a canonical buffer. -/
theorem witness_PutThenGetReturnsTheValue :
    (4#4).toNat ≤ 4 ∧ (6#4).toNat ≤ 6 ∧
    (∀ i ∈ [Instr.putI32 0#4 7#32, .crcBuf], ∀ k, (4#4).toNat ≤ k → k < (4#4).toNat + 4 → writesCell i k = false) ∧
    (∀ i ∈ [Instr.putI16 4#4 7#16, .bufRd 6#4], ∀ k, (6#4).toNat ≤ k → k < (6#4).toNat + 2 → writesCell i k = false) ∧
    Memory.wf (small 0#16 moveBuf 0#2).buf = true ∧
    (∃ t d, exec (.getI32 4#4) (small 0#16 moveBuf 0#2) = .next t ∧ Claims.lastOk t d) ∧
    ∃ t d, exec (.getI16 6#4) (small 0#16 moveBuf 0#2) = .next t ∧ Claims.lastOk t d :=
  ⟨by decide, by decide,
    by simp [writesCell]; omega,
    by simp [writesCell]; omega,
    by decide, ⟨_, 500#32, rfl, rfl⟩, ⟨_, 0#32, rfl, rfl⟩⟩

theorem witness_DisjointPutsCommute :
    accessLegal (.putI32 4#4 1#32) = true ∧ accessLegal (.putI16 2#4 2#16) = true ∧
    ∀ k, writesCell (.putI32 4#4 1#32) k = false ∨ writesCell (.putI16 2#4 2#16) k = false :=
  ⟨by decide, by decide, fun k => by simp [writesCell]; omega⟩

theorem witness_WideAccessIsItsParts : (4#4).toNat ≤ 4 := by decide

theorem witness_ChecksumIsOfTheBufferAtCrcBuf :
    ∀ i ∈ [Instr.bufClr, .putI32 0#4 7#32, .crcRd], writesCrc i = false := by
  decide

/-- A rounding that meets R92, and the ends of the two ranges. -/
def roundHalfUp : Rounding where
  toInt := fun x => round x
  fixes := round_intCast
  near := fun x => by rw [abs_sub_comm]; exact abs_sub_round x

theorem witness_LegalRangesFitTheirFields :
    (∃ _r : Rounding, True) ∧ legalZ (-12) ∧ legalZ 0 ∧ legalC (-180) ∧ legalC 180 :=
  ⟨⟨roundHalfUp, trivial⟩, by norm_num [legalZ], by norm_num [legalZ], by norm_num [legalC], by norm_num [legalC]⟩

theorem witness_CoordinatesSurviveTheRoundTrip :
    (∃ r : Rounding, fieldZ r (-12) = 12000 ∧ fieldC r (-180) = -1800 ∧ fieldXY r (-437) = -43700) ∧
    (6#4).toNat ≤ 6 ∧ (4#4).toNat ≤ 4 ∧ legalZ (-12) ∧ legalC (-180) ∧ fitsWord (-43700) :=
  ⟨⟨roundHalfUp,
    by rw [fieldZ, show (-(-12 : ℚ) * 1000) = ((12000 : ℤ) : ℚ) by norm_num]; exact roundHalfUp.fixes _,
    by rw [fieldC, show ((-180 : ℚ) * 10) = ((-1800 : ℤ) : ℚ) by norm_num]; exact roundHalfUp.fixes _,
    by rw [fieldXY, show ((-437 : ℚ) * 100) = ((-43700 : ℤ) : ℚ) by norm_num]; exact roundHalfUp.fixes _⟩,
    by decide, by decide, by norm_num [legalZ], by norm_num [legalC], by norm_num [fitsWord]⟩

end Sys2Proof.Tests
end

section
/-! PROOFS. The state family (10_state.md): TABLE, held in `State.cfg`, is never written (R14), and the values after
reset (R19). -/

namespace Sys2Proof.Machine

/-- With no event issued a step leaves the state as it is (70_reset_and_hazards.md R122). -/
theorem step_idle {s : State} (h : s.events = []) : step s = .next s := by
  simp only [step, h, idle]

/-- A command, answered OK or with a fault, leaves the parameters as they were. -/
theorem exec_keeps_cfg {i : Instr} {s t : State} (h : exec i s = .next t) : t.cfg = s.cfg := by
  rcases exec_cases i s with ⟨-, u, hu, ok⟩ | ⟨-, hfault⟩
  · obtain rfl : u = t := Host.Outcome.next.inj (hu.symm.trans h)
    exact ok.cfg
  · obtain rfl : raiseFault .offsetRange s = t := Host.Outcome.next.inj (hfault.symm.trans h)
    exact raiseFault_cfg .offsetRange s

/-- A word performed, command or illegal, leaves the parameters as they were. -/
theorem performDecoded_keeps_cfg {d : Decoded} {s t : State} (h : performDecoded d s = .next t) : t.cfg = s.cfg := by
  cases d with
  | command i => exact exec_keeps_cfg h
  | illegal why =>
    obtain rfl : raiseFault .illegalCommand s = t := Host.Outcome.next.inj h
    exact raiseFault_cfg .illegalCommand s

/-- No step writes the parameters, whatever event it takes. -/
theorem step_keeps_cfg {s t : State} (h : step s = .next t) : t.cfg = s.cfg := by
  match hev : s.events with
  | [] =>
    rw [step_idle hev] at h
    rw [Host.Outcome.next.inj h]
  | .command w :: rest =>
    rw [step_command hev] at h
    exact (performDecoded_keeps_cfg h :)
  | .reset :: rest =>
    rw [step_reset hev] at h
    rw [← Host.Outcome.next.inj h, applyReset_cfg]

end Sys2Proof.Machine

namespace Sys2Proof.Claims

open Sys2Proof.Machine

/-- Settles O21: no step writes the parameters, of which TABLE is one. -/
theorem tableIsNeverWritten : Obligations.TableIsNeverWritten :=
  fun _ _ h => congrArg Config.table (step_keeps_cfg h)

/-- Settles O18: the buffer of the reset state lists no cell, so each reads as the unwritten byte 0x00. -/
theorem resetStateHasTheResetValues : Obligations.ResetStateHasTheResetValues :=
  ⟨rfl, fun k _ => Memory.read_nil k, rfl, applyReset_cfg⟩

end Sys2Proof.Claims
end

section
/-! PROOFS. The memory family (20_memory.md): the bytes of a value read, and a read directly after a write of the same
width at the same address (R22). -/

namespace Sys2Proof.Machine

/-! The bytes of a joined value -/

@[simp] theorem halfOfBytes_byte0 (b0 b1 : Byte) : (halfOfBytes b0 b1).extractLsb' 0 8 = b0 :=
  BitVec.extractLsb'_append_eq_right

@[simp] theorem halfOfBytes_byte1 (b0 b1 : Byte) : (halfOfBytes b0 b1).extractLsb' 8 8 = b1 :=
  BitVec.extractLsb'_append_eq_left

@[simp] theorem wordOfBytes_byte0 (b0 b1 b2 b3 : Byte) : (wordOfBytes b0 b1 b2 b3).extractLsb' 0 8 = b0 :=
  BitVec.extractLsb'_append_eq_right

@[simp] theorem wordOfBytes_byte1 (b0 b1 b2 b3 : Byte) : (wordOfBytes b0 b1 b2 b3).extractLsb' 8 8 = b1 := by
  rw [wordOfBytes, BitVec.extractLsb'_append_eq_of_le (by decide)]
  exact BitVec.extractLsb'_append_eq_right

@[simp] theorem wordOfBytes_byte2 (b0 b1 b2 b3 : Byte) : (wordOfBytes b0 b1 b2 b3).extractLsb' 16 8 = b2 := by
  rw [wordOfBytes, BitVec.extractLsb'_append_eq_of_le (by decide), BitVec.extractLsb'_append_eq_of_le (by decide)]
  exact BitVec.extractLsb'_append_eq_right

@[simp] theorem wordOfBytes_byte3 (b0 b1 b2 b3 : Byte) : (wordOfBytes b0 b1 b2 b3).extractLsb' 24 8 = b3 := by
  rw [wordOfBytes, BitVec.extractLsb'_append_eq_of_le (by decide), BitVec.extractLsb'_append_eq_of_le (by decide)]
  exact BitVec.extractLsb'_append_eq_left

/-! A read directly after a write -/

theorem Memory.read_writeByte_same (m : Memory) (a : Nat) (b : Byte) :
    Memory.read (Memory.writeBytes m a [b]) a = b := by
  rw [Memory.read_writeByte, if_pos rfl]

/-- Each cell read back holds its byte of the value, and the bytes of a value join to it again. -/
theorem Memory.readHalf_writeHalf_same (m : Memory) (a : Nat) (v : Half) :
    Memory.readHalf (Memory.writeBytes m a (bytesOfHalf v)) a = v := by
  simp [Memory.readHalf, Memory.read_writeHalf, halfOfBytes_split]

theorem Memory.readWord_writeWord_same (m : Memory) (a : Nat) (v : Word) :
    Memory.readWord (Memory.writeBytes m a (bytesOfWord v)) a = v := by
  simp [Memory.readWord, Memory.read_writeWord, wordOfBytes_split]

end Sys2Proof.Machine

namespace Sys2Proof.Claims

open Sys2Proof.Machine

/-- Settles O41: the bytes of a joined value are the bytes joined, and a value split into bytes is joined again. -/
theorem memReadInvertsMemWrite : Obligations.MemReadInvertsMemWrite :=
  ⟨fun _ _ => ⟨halfOfBytes_byte0 _ _, halfOfBytes_byte1 _ _⟩,
    fun _ _ => ⟨wordOfBytes_byte0 _ _ _ _, wordOfBytes_byte1 _ _ _ _, wordOfBytes_byte2 _ _ _ _,
      wordOfBytes_byte3 _ _ _ _⟩,
    Memory.read_writeByte_same, Memory.readHalf_writeHalf_same, Memory.readWord_writeWord_same⟩

end Sys2Proof.Claims
end

section
/-! PROOFS. The encoding family (30_encoding.md): the words of a row of the opcode map (R38), stray bits (R40), reserved
opcodes (R41), the pseudo-commands (R44), and the one response of a command word (R36). -/

namespace Sys2Proof

/-! The fixed fields of a row, each under its mask (R37) -/

theorem and_maskNibble (off : BitVec 4) : off &&& 0xF#4 = off := BitVec.and_allOnes

theorem and_maskWord (data : Word) : data &&& 0xFFFFFFFF#32 = data := BitVec.and_allOnes

theorem shapeN_of_masks {off : BitVec 4} {data : Word} (i : Instr) (hoff : off &&& 0xF#4 = 0#4)
    (hdata : data &&& 0xFFFFFFFF#32 = 0#32) : shapeN off data i = .command i := by
  rw [and_maskNibble] at hoff
  rw [and_maskWord] at hdata
  exact shapeN_eq_command.2 ⟨⟨hoff, hdata⟩, rfl⟩

theorem shapeB_of_masks {off : BitVec 4} {data : Word} (i : Byte → Instr) (hoff : off &&& 0xF#4 = 0#4)
    (hdata : data &&& 0xFFFFFF00#32 = 0#32) : shapeB off data i = .command (i (data.extractLsb' 0 8)) := by
  rw [and_maskNibble] at hoff
  exact shapeB_eq_command.2 ⟨⟨hoff, (and_maskAboveByte data).1 hdata⟩, rfl⟩

theorem shapeA_of_mask {off : BitVec 4} {data : Word} (i : BitVec 4 → Instr)
    (hdata : data &&& 0xFFFFFFFF#32 = 0#32) : shapeA off data i = .command (i off) := by
  rw [and_maskWord] at hdata
  exact shapeA_eq_command.2 ⟨hdata, rfl⟩

theorem shapeAB_of_mask {off : BitVec 4} {data : Word} (i : BitVec 4 → Byte → Instr)
    (hdata : data &&& 0xFFFFFF00#32 = 0#32) : shapeAB off data i = .command (i off (data.extractLsb' 0 8)) :=
  shapeAB_eq_command.2 ⟨(and_maskAboveByte data).1 hdata, rfl⟩

theorem shapeAH_of_mask {off : BitVec 4} {data : Word} (i : BitVec 4 → Half → Instr)
    (hdata : data &&& 0xFFFF0000#32 = 0#32) : shapeAH off data i = .command (i off (data.extractLsb' 0 16)) :=
  shapeAH_eq_command.2 ⟨(and_maskAboveHalf data).1 hdata, rfl⟩

/-! The rows (R38) -/

theorem Instr.row_mem (i : Instr) : i.row ∈ opcodeRows := by
  cases i <;> simp [Instr.row, opcodeRows]

theorem Instr.row_mnemonic (i : Instr) : i.row.mnemonic = i.mnemonic := by
  cases i <;> rfl

/-- Every mask covers the whole of `op`. -/
theorem opField_mask {row : OpcodeRow} (hrow : row ∈ opcodeRows) : opField row.mask = 0xF#4 :=
  (by decide : ∀ row ∈ opcodeRows, opField row.mask = 0xF#4) row hrow

/-- A row is known by its opcode. -/
theorem row_eq_of_opField_eq {row row' : OpcodeRow} (hrow : row ∈ opcodeRows) (hrow' : row' ∈ opcodeRows)
    (h : opField row.pattern = opField row'.pattern) : row = row' :=
  (by decide : ∀ row ∈ opcodeRows, ∀ row' ∈ opcodeRows, opField row.pattern = opField row'.pattern → row = row')
    row hrow row' hrow' h

/-- A word of a row has the row's opcode. -/
theorem opField_eq_of_matches {w : CmdWord} {row : OpcodeRow} (hrow : row ∈ opcodeRows)
    (h : w &&& row.mask = row.pattern) : opField w = opField row.pattern := by
  obtain ⟨hop, -, -⟩ := (and_mask_eq_pattern w row).1 h
  rwa [opField_mask hrow, and_maskNibble] at hop

/-! From the decoder to the row -/

/-- The fields a command is decoded from are those it is encoded in. -/
theorem encode_of_decodeFields {op off : BitVec 4} {data : Word} {i : Instr}
    (h : decodeFields op off data = .command i) : encode i = packFields op off data := by
  unfold decodeFields at h
  split at h
  case h_1 | h_3 | h_4 | h_5 =>
    obtain ⟨⟨rfl, rfl⟩, rfl⟩ := shapeN_eq_command.1 h
    rfl
  case h_2 =>
    obtain ⟨⟨rfl, hdata⟩, rfl⟩ := shapeB_eq_command.1 h
    rw [encode, data_of_byte hdata]
  case h_6 =>
    obtain ⟨hdata, rfl⟩ := shapeAB_eq_command.1 h
    rw [encode, data_of_byte hdata]
  case h_7 | h_10 | h_11 =>
    obtain ⟨rfl, rfl⟩ := shapeA_eq_command.1 h
    rfl
  case h_8 =>
    obtain rfl := shapeAW_eq_command.1 h
    rfl
  case h_9 =>
    obtain ⟨hdata, rfl⟩ := shapeAH_eq_command.1 h
    rw [encode, data_of_half hdata]
  case h_12 => cases h

/-- A word that decodes to a command is the word that command encodes to. -/
theorem encode_of_decode {w : CmdWord} {i : Instr} (h : decode w = .command i) : encode i = w :=
  (encode_of_decodeFields h).trans (packFields_fields w)

theorem encode_matches_row (i : Instr) : encode i &&& i.row.mask = i.row.pattern := by
  have h : Laws.EncodedRow.Statement i := by
    cases i with
    | crcInit => exact Laws.EncodedRow.crcInit
    | crcByte b => exact Laws.EncodedRow.crcByte b
    | crcBuf => exact Laws.EncodedRow.crcBuf
    | crcRd => exact Laws.EncodedRow.crcRd
    | bufClr => exact Laws.EncodedRow.bufClr
    | bufWr off b => exact Laws.EncodedRow.bufWr off b
    | bufRd off => exact Laws.EncodedRow.bufRd off
    | putI32 off v => exact Laws.EncodedRow.putI32 off v
    | putI16 off v => exact Laws.EncodedRow.putI16 off v
    | getI32 off => exact Laws.EncodedRow.getI32 off
    | getI16 off => exact Laws.EncodedRow.getI16 off
  exact beq_iff_eq.1 h

theorem matches_row_of_decode {w : CmdWord} {i : Instr} (h : decode w = .command i) :
    w &&& i.row.mask = i.row.pattern := by
  rw [← encode_of_decode h]
  exact encode_matches_row i

/-! From the row to the decoder -/

theorem decode_of_opField {w : CmdWord} {op : BitVec 4} {d : Decoded} (hop : opField w = op)
    (h : decodeFields op (offField w) (dataField w) = d) : decode w = d := by
  rw [decode, hop, h]

/-- A word of a row decodes to a command of that row. -/
theorem decode_of_matches {w : CmdWord} {row : OpcodeRow} (hrow : row ∈ opcodeRows)
    (h : w &&& row.mask = row.pattern) : ∃ i, decode w = .command i ∧ i.row = row := by
  have hop := opField_eq_of_matches hrow h
  obtain ⟨-, hoff, hdata⟩ := (and_mask_eq_pattern w row).1 h
  simp only [opcodeRows, List.mem_cons, List.not_mem_nil, or_false] at hrow
  obtain rfl | rfl | rfl | rfl | rfl | rfl | rfl | rfl | rfl | rfl | rfl := hrow
  · exact ⟨.crcInit, decode_of_opField (op := 0x1#4) hop (shapeN_of_masks _ hoff hdata), rfl⟩
  · exact ⟨.crcByte _, decode_of_opField (op := 0x2#4) hop (shapeB_of_masks _ hoff hdata), rfl⟩
  · exact ⟨.crcBuf, decode_of_opField (op := 0x3#4) hop (shapeN_of_masks _ hoff hdata), rfl⟩
  · exact ⟨.crcRd, decode_of_opField (op := 0x4#4) hop (shapeN_of_masks _ hoff hdata), rfl⟩
  · exact ⟨.bufClr, decode_of_opField (op := 0x5#4) hop (shapeN_of_masks _ hoff hdata), rfl⟩
  · exact ⟨.bufWr _ _, decode_of_opField (op := 0x6#4) hop (shapeAB_of_mask _ hdata), rfl⟩
  · exact ⟨.bufRd _, decode_of_opField (op := 0x7#4) hop (shapeA_of_mask _ hdata), rfl⟩
  · exact ⟨.putI32 _ _, decode_of_opField (op := 0x8#4) hop rfl, rfl⟩
  · exact ⟨.putI16 _ _, decode_of_opField (op := 0x9#4) hop (shapeAH_of_mask _ hdata), rfl⟩
  · exact ⟨.getI32 _, decode_of_opField (op := 0xA#4) hop (shapeA_of_mask _ hdata), rfl⟩
  · exact ⟨.getI16 _, decode_of_opField (op := 0xB#4) hop (shapeA_of_mask _ hdata), rfl⟩

/-! What the rows say of the decoder -/

/-- R38: the words of a row are those that decode to a command of it. -/
theorem matches_iff_decode {w : CmdWord} {row : OpcodeRow} (hrow : row ∈ opcodeRows) :
    w &&& row.mask = row.pattern ↔ ∃ i, decode w = .command i ∧ i.row = row := by
  constructor
  · exact decode_of_matches hrow
  · rintro ⟨i, hi, rfl⟩
    exact matches_row_of_decode hi

/-- R38: no word matches two rows, since each mask covers `op` and no two rows share an opcode. -/
theorem row_unique {w : CmdWord} {row row' : OpcodeRow} (hrow : row ∈ opcodeRows) (hrow' : row' ∈ opcodeRows)
    (h : w &&& row.mask = row.pattern) (h' : w &&& row'.mask = row'.pattern) : row = row' :=
  row_eq_of_opField_eq hrow hrow' ((opField_eq_of_matches hrow h).symm.trans (opField_eq_of_matches hrow' h'))

/-- R41: a word of a reserved opcode is illegal, whatever its other bits. -/
theorem decode_reserved {w : CmdWord}
    (h : opField w = 0x0#4 ∨ opField w = 0xC#4 ∨ opField w = 0xD#4 ∨ opField w = 0xE#4 ∨ opField w = 0xF#4) :
    decode w = .illegal .reservedOpcode := by
  obtain hop | hop | hop | hop | hop := h <;> exact decode_of_opField hop rfl

/-- The opcodes above those of the commands. -/
theorem opcode_above_commands {op : BitVec 4} (h : 0xC#4 ≤ op) :
    op = 0xC#4 ∨ op = 0xD#4 ∨ op = 0xE#4 ∨ op = 0xF#4 :=
  (by decide : ∀ op : BitVec 4, 0xC#4 ≤ op → op = 0xC#4 ∨ op = 0xD#4 ∨ op = 0xE#4 ∨ op = 0xF#4) op h

/-- R40: a word of a row's opcode that does not match the row is illegal, since no other row has that opcode. -/
theorem decode_of_not_matches {w : CmdWord} {row : OpcodeRow} (hrow : row ∈ opcodeRows)
    (hop : opField w = opField row.pattern) (h : w &&& row.mask ≠ row.pattern) : ∃ why, decode w = .illegal why := by
  match hd : decode w with
  | .illegal why => exact ⟨why, rfl⟩
  | .command i =>
    have hi := matches_row_of_decode hd
    have hop' : opField i.row.pattern = opField row.pattern := (opField_eq_of_matches i.row_mem hi).symm.trans hop
    rw [row_eq_of_opField_eq i.row_mem hrow hop'] at hi
    exact absurd hi h

/-- A word is well formed exactly when it is a command's. -/
theorem wellFormedWord_iff (w : CmdWord) : wellFormedWord w = true ↔ ∃ i, decode w = .command i := by
  simp only [wellFormedWord, List.any_eq_true, OpcodeRow.matchesWord, beq_iff_eq]
  constructor
  · rintro ⟨row, hrow, h⟩
    obtain ⟨i, hi, -⟩ := decode_of_matches hrow h
    exact ⟨i, hi⟩
  · rintro ⟨i, hi⟩
    exact ⟨i.row, i.row_mem, matches_row_of_decode hi⟩

end Sys2Proof

namespace Sys2Proof.Machine

/-- A step on an illegal word raises IllegalCommand, the event taken (60_exceptions.md R101, R105). -/
theorem step_illegal {s : State} {w : CmdWord} {rest : List Event} {why : IllegalReason}
    (h : s.events = .command w :: rest) (hd : decode w = .illegal why) :
    step s = .next (raiseFault .illegalCommand { s with events := rest }) := by
  rw [step_command h, hd, performDecoded]

/-- The value a command reads does not depend on what the host has issued. -/
theorem valueRead_events (i : Instr) (s : State) (rest : List Event) :
    valueRead i { s with events := rest } = valueRead i s := by
  cases i <;> rfl

/-! Commands in sequence -/

/-- A sequence goes on from the state its first command leaves. -/
theorem execAll_cons {i : Instr} {is : List Instr} {s t : State} (h : exec i s = .next t) :
    execAll (i :: is) s = execAll is t := by
  rw [execAll, h]

/-- CRC_BYTEs at the front of a sequence fold their bytes into the accumulator. -/
theorem execAll_crcBytes (bs : List Byte) (is : List Instr) (s : State) :
    ∃ t, execAll (bs.map .crcByte ++ is) s = execAll is t ∧
      t.crc = crcFold s.cfg.table s.crc bs ∧ t.cfg = s.cfg := by
  induction bs generalizing s with
  | nil => exact ⟨s, rfl, rfl, rfl⟩
  | cons b bs ih =>
    obtain ⟨t, hrun, hcrc, hcfg⟩ := ih (respondOk 0#32 (setCrc (crcStep s.cfg.table s.crc b) s))
    exact ⟨t, hrun, hcrc, hcfg⟩

/-- CKSUM ends with the checksum of its bytes in the accumulator and as the last response (R44). -/
theorem execAll_expandCksum (bs : List Byte) (s : State) :
    ∃ t, execAll (expandCksum bs) s = .next (respondOk ((checksum s.cfg.table bs).setWidth 32) t) ∧
      t.crc = checksum s.cfg.table bs := by
  obtain ⟨t, hrun, hcrc, -⟩ := execAll_crcBytes bs [.crcRd] (respondOk 0#32 (setCrc 0x0000#16 s))
  have hcrc : t.crc = checksum s.cfg.table bs := hcrc
  refine ⟨t, ?_, hcrc⟩
  calc execAll (expandCksum bs) s
      = execAll [.crcRd] t := hrun
    _ = .next (respondOk (zextHalf t.crc) t) := rfl
    _ = .next (respondOk ((checksum s.cfg.table bs).setWidth 32) t) := by rw [hcrc, zextHalf]

/-- BUF_WRs at rising addresses within the buffer write their bytes in address order. -/
theorem execAll_expandLoad (off : BitVec 4) (bs : List Byte) (s : State) (h : off.toNat + bs.length ≤ 8) :
    ∃ t, execAll (expandLoad off bs) s = .next t ∧ t.buf = Memory.writeBytes s.buf off.toNat bs := by
  induction bs generalizing off s with
  | nil => exact ⟨s, rfl, rfl⟩
  | cons b bs ih =>
    rw [List.length_cons] at h
    have hnext : (off + 1#4).toNat = off.toNat + 1 := by
      rw [BitVec.toNat_add, BitVec.toNat_ofNat]
      omega
    have hexec := (exec_bufWr off b s).trans (withAccess_inRange s _ (by omega))
    obtain ⟨t, hrun, hbuf⟩ := ih (off + 1#4)
      (respondOk 0#32 (setBuf (Memory.writeBytes s.buf off.toNat [b]) s)) (by omega)
    refine ⟨t, (execAll_cons hexec).trans hrun, ?_⟩
    rw [hbuf, hnext]
    rfl

/-- Eight bytes written from address 0 are the whole payload. -/
theorem Memory.payload_writeBytes (m : Memory) (b0 b1 b2 b3 b4 b5 b6 b7 : Byte) :
    Memory.payload (Memory.writeBytes m 0 [b0, b1, b2, b3, b4, b5, b6, b7]) = [b0, b1, b2, b3, b4, b5, b6, b7] := by
  simp [Memory.payload, Memory.read_writeBytes]

end Sys2Proof.Machine

namespace Sys2Proof.Claims

open Sys2Proof.Machine

/-- The state the claims write out after an illegal word is the one the model's fault leaves. -/
theorem raiseFault_illegalCommand_eq_faulted (s : State) : raiseFault .illegalCommand s = faulted s 1#2 := rfl

theorem step_illegal_eq_faulted {s : State} {w : CmdWord} {rest : List Event} {why : IllegalReason}
    (h : s.events = .command w :: rest) (hd : decode w = .illegal why) :
    step s = .next (faulted (taken s rest) 1#2) := by
  rw [step_illegal h hd, raiseFault_illegalCommand_eq_faulted, taken]

/-- Settles O4: a match gives a command of the row, a command's word is its own encoding and so matches its row, and
rows differ in their opcode. -/
theorem wordIsOfARowExactlyWhenItMatches : Obligations.WordIsOfARowExactlyWhenItMatches := by
  refine ⟨fun w row hrow => ?_, fun _ _ _ => row_unique, fun w h => ?_, wellFormedWord_iff⟩
  · rw [matches_iff_decode hrow]
    constructor
    · rintro ⟨i, hi, hirow, -⟩
      exact ⟨i, hi, hirow⟩
    · rintro ⟨i, hi, rfl⟩
      exact ⟨i, hi, rfl, i.row_mnemonic.symm⟩
  · exact ⟨_, decode_reserved (h.imp_right opcode_above_commands)⟩

/-- Settles O5: the word is illegal, since the one row of its opcode is not matched. -/
theorem strayBitRaisesIllegalCommand : Obligations.StrayBitRaisesIllegalCommand := by
  refine ⟨fun s w rest row hev hrow hop hmask => ?_, by decide, by decide, by decide, by decide⟩
  obtain ⟨why, hd⟩ := decode_of_not_matches hrow hop hmask
  exact step_illegal_eq_faulted hev hd

/-- Settles O6: no row has a reserved opcode, and the word of zeros has opcode 0x0. -/
theorem reservedOpcodeRaisesIllegalCommand : Obligations.ReservedOpcodeRaisesIllegalCommand :=
  ⟨fun _ _ _ hev hop => step_illegal_eq_faulted hev (decode_reserved hop),
    fun _ _ hev => step_illegal_eq_faulted hev (decode_reserved (.inl (by decide)))⟩

/-- Settles O8, by induction on the bytes of each expansion. -/
theorem pseudoCommandsDoWhatTheyStandFor : Obligations.PseudoCommandsDoWhatTheyStandFor := by
  refine ⟨fun bs s => ⟨rfl, ?_⟩, fun b0 b1 b2 b3 b4 b5 b6 b7 s => ⟨rfl, ?_⟩⟩
  · obtain ⟨t, hrun, -⟩ := execAll_expandCksum bs s
    exact ⟨_, hrun, by simp [lastOk]⟩
  · obtain ⟨t, hrun, hbuf⟩ := execAll_expandLoad 0#4 [b0, b1, b2, b3, b4, b5, b6, b7] s (by simp)
    refine ⟨t, hrun, ?_⟩
    rw [hbuf]
    exact Memory.payload_writeBytes _ _ _ _ _ _ _ _ _

/-- Settles O12: an illegal word and an access out of range answer a fault's code with data 0, and any other command
answers OK with its value. -/
theorem everyCommandGetsOneResponse : Obligations.EveryCommandGetsOneResponse := by
  intro s w rest hev
  match hd : decode w with
  | .illegal why =>
    exact ⟨_, _, step_illegal hev hd, rfl, rfl, faultCode_ne_three .illegalCommand, fun _ => rfl,
      fun h => absurd h (faultCode_ne_zero .illegalCommand)⟩
  | .command i =>
    have hstep : step s = exec i { s with events := rest } := by rw [step_command hev, hd, performDecoded]
    rw [hstep]
    obtain ⟨-, t, ht, ok⟩ | ⟨-, hfault⟩ := exec_cases i { s with events := rest }
    · exact ⟨t, _, ht, ok.events, ok.answers, (by decide : 0#2 ≠ 3#2), fun h => absurd rfl h,
        fun _ => ⟨i, rfl, valueRead_events i s rest⟩⟩
    · exact ⟨_, _, hfault, rfl, rfl, faultCode_ne_three .offsetRange, fun _ => rfl,
        fun h => absurd h (faultCode_ne_zero .offsetRange)⟩

end Sys2Proof.Claims
end

section
/-! PROOFS. The checksum family (40_crc.md): the words of its four commands and what each does (R55 to R58), and what
the width and the signedness of the accumulator do to `crc_step` (R53). -/

namespace Sys2Proof

/-! The words of shape N and of shape B (30_encoding.md R37, R40) -/

/-- A word of a shape N opcode with a bit of `off` or `data` set is illegal. -/
theorem decode_stray_shapeN {w : CmdWord} {op : BitVec 4} {i : Instr}
    (hshape : ∀ off data, decodeFields op off data = shapeN off data i) (hop : opField w = op)
    (h : offField w ≠ 0#4 ∨ dataField w ≠ 0#32) : decode w = .illegal .strayBits :=
  decode_of_opField hop ((hshape _ _).trans (shapeN_eq_illegal.2 ⟨not_and_or.2 h, rfl⟩))

/-- A word of a shape B opcode with a bit of `off` or of `data[31:8]` set is illegal. -/
theorem decode_stray_shapeB {w : CmdWord} {op : BitVec 4} {i : Byte → Instr}
    (hshape : ∀ off data, decodeFields op off data = shapeB off data i) (hop : opField w = op)
    (h : offField w ≠ 0#4 ∨ (dataField w).extractLsb' 8 24 ≠ 0#24) : decode w = .illegal .strayBits :=
  decode_of_opField hop ((hshape _ _).trans (shapeB_eq_illegal.2 ⟨not_and_or.2 h, rfl⟩))

/-- A word written out with a byte below 24 zeros has the byte, zero-extended, as its data field. -/
theorem append_zeros_byte_eq_packFields (op off : BitVec 4) (b : Byte) :
    op ++ off ++ 0x000000#24 ++ b = packFields op off (b.setWidth 32) := by
  rw [packFields, BitVec.setWidth_eq_append (by decide : 8 ≤ 32), BitVec.append_assoc]
  rfl

theorem decode_crcByte (b : Byte) : decode (packFields 0x2#4 0#4 (b.setWidth 32)) = .command (.crcByte b) := by
  rw [decode_packFields]
  exact shapeB_eq_command.2 ⟨⟨rfl, highBits_of_byte b⟩, congrArg Instr.crcByte (lowByte_of_data b)⟩

end Sys2Proof

namespace Sys2Proof.Machine

/-! What the commands do -/

/-- CRC_BUF sets the checksum of the payload, whatever the accumulator was. -/
theorem exec_crcBuf {s : State} {v : Half} (h : checksum s.cfg.table (Memory.payload s.buf) = v) :
    exec .crcBuf s = .next (respondOk 0#32 (setCrc v s)) := by
  rw [← h]
  rfl

/-- CRC_RD answers the accumulator below 16 zeros. -/
theorem exec_crcRd (s : State) : exec .crcRd s = .next (respondOk (0x0000#16 ++ s.crc) s) := by
  have hzext : zextHalf s.crc = 0x0000#16 ++ s.crc := BitVec.setWidth_eq_append (by decide)
  rw [← hzext]
  rfl

/-- A command with its access in range answers OK. -/
theorem exec_okEffect {i : Instr} (s : State) (h : accessLegal i = true) :
    ∃ t, exec i s = .next t ∧ OkEffect i s t := by
  obtain ⟨-, hok⟩ | ⟨hbad, -⟩ := exec_cases i s
  · exact hok
  · exact absurd (h.symm.trans hbad) (by decide)

/-- Commands that make no access out of range and write no cell keep the buffer and the fault record. -/
theorem execAll_keeps_buf_flt {is : List Instr} {s t : State}
    (his : ∀ i ∈ is, accessLegal i = true ∧ ∀ k, writesCell i k = false) (h : execAll is s = .next t) :
    t.buf = s.buf ∧ t.flt = s.flt := by
  induction is generalizing s with
  | nil =>
    obtain rfl : s = t := Host.Outcome.next.inj h
    exact ⟨rfl, rfl⟩
  | cons i is ih =>
    obtain ⟨hlegal, hcells⟩ := his i List.mem_cons_self
    obtain ⟨u, hu, ok⟩ := exec_okEffect s hlegal
    rw [execAll_cons hu] at h
    obtain ⟨hbuf, hflt⟩ := ih (fun j hj => his j (List.mem_cons_of_mem i hj)) h
    exact ⟨hbuf.trans (ok.buf hcells), hflt.trans ok.flt⟩

/-- CRC_INIT and a CRC_BYTE for each byte leave the checksum of the bytes and keep the buffer and the fault record. -/
theorem execAll_crcInit_crcBytes (bs : List Byte) (s : State) :
    ∃ t, execAll (.crcInit :: bs.map .crcByte) s = .next t ∧
      t.crc = checksum s.cfg.table bs ∧ t.buf = s.buf ∧ t.flt = s.flt := by
  obtain ⟨t, hrun, hcrc, -⟩ := execAll_crcBytes bs [] (respondOk 0#32 (setCrc 0x0000#16 s))
  rw [List.append_nil] at hrun
  have hrun : execAll (.crcInit :: bs.map .crcByte) s = .next t := hrun
  have hkeeps : ∀ i ∈ Instr.crcInit :: bs.map .crcByte, accessLegal i = true ∧ ∀ k, writesCell i k = false := by
    simp [accessLegal, accessOf, writesCell]
  exact ⟨t, hrun, hcrc, execAll_keeps_buf_flt hkeeps hrun⟩

/-! Checksums of zeros -/

/-- The zero accumulator is a fixed point of a zero byte when TABLE[0] is 0. -/
theorem crcStep_zero {table : Table} (h : tableRead table 0x00#8 = 0x0000#16) :
    crcStep table 0x0000#16 0x00#8 = 0x0000#16 := by
  have hindex : 0x00#8 ^^^ highByte 0x0000#16 = 0x00#8 := by decide
  rw [crcStep, hindex, h]
  decide

theorem checksum_zeros {table : Table} (h : tableRead table 0x00#8 = 0x0000#16) (n : Nat) :
    checksum table (List.replicate n 0x00#8) = 0x0000#16 := by
  induction n with
  | zero => rfl
  | succ n ih =>
    calc checksum table (List.replicate (n + 1) 0x00#8)
        = crcFold table (crcStep table 0x0000#16 0x00#8) (List.replicate n 0x00#8) := rfl
      _ = checksum table (List.replicate n 0x00#8) := by rw [crcStep_zero h, checksum]
      _ = 0x0000#16 := ih

theorem Memory.payload_of_zeros {m : Memory} (h : ∀ k, k < 8 → Memory.read m k = 0x00#8) :
    Memory.payload m = List.replicate 8 0x00#8 := by
  simp [Memory.payload, h, List.replicate]

/-! The width and the signedness of the accumulator (R53) -/

/-- A sign-extending right shift by 8 has bits 15:8 as its low byte: the copies of the sign it fills in lie above
bit 7. -/
theorem lowByte_sshiftRight (r : Half) : (r.sshiftRight 8).setWidth 8 = r.extractLsb' 8 8 := by
  ext i hi
  have hlow : 8 + i < 16 := by omega
  rw [BitVec.getElem_setWidth, BitVec.getElem_extractLsb', BitVec.getLsbD_sshiftRight]
  simp [hlow]
  omega

/-- A 16-bit left shift by 8 leaves the low byte above a zero byte. -/
theorem shiftLeft_eight (r : Half) : r <<< 8 = lowByte r ++ 0x00#8 :=
  BitVec.shiftLeft_eq_concat_of_lt (by decide)

end Sys2Proof.Machine

namespace Sys2Proof.Claims

open Sys2Proof.Machine

/-- Truncation to 16 bits commutes with the step: it distributes over the exclusive-or and the left shift, and the index
reads bits 15:8 only. -/
theorem wideStep_setWidth (table : Table) (r : BitVec 32) (b : Byte) :
    (wideStep table r b).setWidth 16 = crcStep table (r.setWidth 16) b := by
  have hindex : r.extractLsb' 8 8 = highByte (r.setWidth 16) := (BitVec.extractLsb'_setWidth_of_le (by decide)).symm
  calc (wideStep table r b).setWidth 16
      = tableRead table (b ^^^ r.extractLsb' 8 8) ^^^ (r.setWidth 16 <<< 8) := by simp [wideStep]
    _ = crcStep table (r.setWidth 16) b := by rw [hindex, shiftLeft_eight, crcStep]

/-- Settles O33: bits above bit 15 reach neither the index nor the low half of a step, and CRC_RD has zeros there. -/
theorem wideningKeepsTheLowSixteenBits : Obligations.WideningKeepsTheLowSixteenBits := by
  refine ⟨wideStep_setWidth, fun r b => ⟨?_, ?_⟩, shiftLeft_eight, by decide, fun s => ?_⟩
  · rw [lowByte_sshiftRight]
  · rw [BitVec.setWidth_ushiftRight_eq_extractLsb]
  · exact ⟨_, 0x0000#16 ++ s.crc, exec_crcRd s, by simp [lastOk], BitVec.extractLsb'_append_eq_left⟩

/-- Settles O24: CRC_INIT is of shape N. -/
theorem crcInitStartsAChecksum : Obligations.CrcInitStartsAChecksum :=
  ⟨fun _ => rfl, by decide, fun _ => decode_stray_shapeN fun _ _ => rfl⟩

/-- Settles O25: CRC_BYTE is one `crc_step` and of shape B. -/
theorem crcByteFoldsOneByte : Obligations.CrcByteFoldsOneByte := by
  refine ⟨fun _ _ => rfl, fun b => ?_, fun _ => decode_stray_shapeB fun _ _ => rfl, fun s htable hcrc => ?_⟩
  · exact (congrArg decode (append_zeros_byte_eq_packFields _ _ b)).trans (decode_crcByte b)
  · have hstep : crcStep tableCcitt 0x2672#16 0x32#8 = 0x20B5#16 := by decide
    rw [← hstep, ← htable, ← hcrc]
    rfl

/-- Settles O26: CRC_BUF sets the checksum of the payload, which the bytes streamed after CRC_INIT give too. -/
theorem crcBufChecksumsTheBuffer : Obligations.CrcBufChecksumsTheBuffer := by
  refine ⟨fun _ => exec_crcBuf rfl, fun s => ?_, fun s hzero hcells => exec_crcBuf ?_, by decide,
    fun _ => decode_stray_shapeN fun _ _ => rfl, fun s htable hpayload => exec_crcBuf ?_⟩
  · obtain ⟨u, hrun, hcrc, hbuf, hflt⟩ := execAll_crcInit_crcBytes (Memory.payload s.buf) s
    exact ⟨_, u, exec_crcBuf rfl, hrun, hcrc, hbuf, hflt⟩
  · rw [Memory.payload_of_zeros hcells, checksum_zeros hzero]
  · rw [htable, hpayload]
    decide

/-- Settles O27: the answer is the accumulator zero-extended, and CRC_RD is of shape N. -/
theorem crcRdReadsTheAccumulator : Obligations.CrcRdReadsTheAccumulator :=
  ⟨exec_crcRd, by decide, fun _ => decode_stray_shapeN fun _ _ => rfl⟩

end Sys2Proof.Claims
end

section
/-! PROOFS. The frame codec family (41_frame_codec.md): the words of shapes A, AH and AW, and what PUT_I32, PUT_I16,
GET_I32 and GET_I16 do (R65 to R68). -/

namespace Sys2Proof

/-! The words of shape A and of shape AH (30_encoding.md R37, R40) -/

/-- A word of a shape A opcode with a bit of `data` set is illegal. -/
theorem decode_stray_shapeA {w : CmdWord} {op : BitVec 4} {i : BitVec 4 → Instr}
    (hshape : ∀ off data, decodeFields op off data = shapeA off data i) (hop : opField w = op)
    (h : dataField w ≠ 0#32) : decode w = .illegal .strayBits :=
  decode_of_opField hop ((hshape _ _).trans (shapeA_eq_illegal.2 ⟨h, rfl⟩))

/-- A word of a shape AH opcode with a bit of `data[31:16]` set is illegal. -/
theorem decode_stray_shapeAH {w : CmdWord} {op : BitVec 4} {i : BitVec 4 → Half → Instr}
    (hshape : ∀ off data, decodeFields op off data = shapeAH off data i) (hop : opField w = op)
    (h : (dataField w).extractLsb' 16 16 ≠ 0#16) : decode w = .illegal .strayBits :=
  decode_of_opField hop ((hshape _ _).trans (shapeAH_eq_illegal.2 ⟨h, rfl⟩))

/-- A word written out with a 16-bit value below 16 zeros has the value, zero-extended, as its data field. -/
theorem append_zeros_half_eq_packFields (op off : BitVec 4) (v : Half) :
    op ++ off ++ 0x0000#16 ++ v = packFields op off (v.setWidth 32) := by
  rw [packFields, BitVec.setWidth_eq_append (by decide : 16 ≤ 32), BitVec.append_assoc]
  rfl

theorem decode_putI16 (off : BitVec 4) (v : Half) :
    decode (packFields 0x9#4 off (v.setWidth 32)) = .command (.putI16 off v) := by
  rw [decode_packFields]
  exact shapeAH_eq_command.2 ⟨highBits_of_half v, congrArg (Instr.putI16 off) (lowHalf_of_data v)⟩

end Sys2Proof

namespace Sys2Proof.Machine

/-! The cells of a write and of the empty buffer -/

/-- A read inside the bytes written sees the byte written there. -/
theorem Memory.read_writeBytes_inside (m : Memory) (a : Nat) {bs : List Byte} {i : Nat} (h : i < bs.length) :
    Memory.read (Memory.writeBytes m a bs) (a + i) = bs[i] := by
  rw [Memory.read_writeBytes, if_pos (by omega), Nat.add_sub_cancel_left, List.getD_eq_getElem _ _ h]

theorem Memory.readWord_nil (a : Nat) : Memory.readWord [] a = 0#32 := by
  simp only [Memory.readWord, Memory.read_nil]
  decide

/-! The sign extension of a 16-bit value (30_encoding.md R42) -/

theorem sextHalf_high (v : Half) {j : Nat} (hlo : 15 ≤ j) (hhi : j < 32) : (sextHalf v).getLsbD j = v.msb := by
  rw [sextHalf, BitVec.getLsbD_signExtend, BitVec.msb_eq_getLsbD_last]
  obtain rfl | h := hlo.eq_or_lt
  · rfl
  · simp [hhi, show ¬ j < 16 by omega]

@[simp] theorem sextHalf_low (v : Half) : (sextHalf v).setWidth 16 = v := by
  ext j hj
  rw [BitVec.getElem_setWidth, sextHalf, BitVec.getLsbD_signExtend]
  simp [hj, show j < 32 by omega]

theorem sextHalf_toInt (v : Half) : (sextHalf v).toInt = v.toInt :=
  BitVec.toInt_signExtend_of_le (by decide)

/-- Sign extension keeps the bits of the value, so each of its two bytes. -/
theorem sextHalf_extract (v : Half) {start len : Nat} (h : start + len ≤ 16) :
    (sextHalf v).extractLsb' start len = v.extractLsb' start len := by
  rw [← BitVec.extractLsb'_setWidth_of_le h, sextHalf_low]

end Sys2Proof.Machine

namespace Sys2Proof.Claims

open Sys2Proof.Machine

/-- An access out of range leaves the state the claims write out for an OffsetRange fault. -/
theorem withAccess_eq_faulted {off : BitVec 4} {n : Nat} {s : State} {effect : Nat → State}
    (h : 8 < off.toNat + n) : withAccess off n s effect = .next (faulted s 2#2) :=
  withAccess_outOfRange s effect (by omega)

/-- Settles O37: the cells written are the bytes of the value, and a word of opcode 0x8 has no unused bit. -/
theorem putI32StoresFourBytes : Obligations.PutI32StoresFourBytes := by
  refine ⟨fun off v s h => ?_, fun off v s h => (exec_putI32 off v s).trans (withAccess_eq_faulted (by omega)),
    fun off v => decode_packFields _ off v, fun w hop => ⟨_, decode_of_opField hop rfl⟩⟩
  refine ⟨_, (exec_putI32 off v s).trans (withAccess_inRange s _ (by omega)), rfl, ?_⟩
  rintro _ rfl
  have hcell (i : Nat) (hi : i < 4) := Memory.read_writeBytes_inside s.buf off.toNat (bs := bytesOfWord v) hi
  exact ⟨hcell 0 (by decide), hcell 1 (by decide), hcell 2 (by decide), hcell 3 (by decide),
    fun k hk => Memory.read_writeBytes_outside s.buf _ k (bytesOfWord v) hk⟩

/-- Settles O38: the cells written are the two bytes of the value, and PUT_I16 is of shape AH. -/
theorem putI16StoresTwoBytes : Obligations.PutI16StoresTwoBytes := by
  refine ⟨fun off v s h => ?_, fun off v s h => (exec_putI16 off v s).trans (withAccess_eq_faulted (by omega)),
    fun off v => ?_, fun _ => decode_stray_shapeAH fun _ _ => rfl⟩
  · refine ⟨_, (exec_putI16 off v s).trans (withAccess_inRange s _ (by omega)), rfl, ?_⟩
    rintro _ rfl
    have hcell (i : Nat) (hi : i < 2) := Memory.read_writeBytes_inside s.buf off.toNat (bs := bytesOfHalf v) hi
    exact ⟨hcell 0 (by decide), hcell 1 (by decide),
      fun k hk => Memory.read_writeBytes_outside s.buf _ k (bytesOfHalf v) hk⟩
  · exact (congrArg decode (append_zeros_half_eq_packFields _ off v)).trans (decode_putI16 off v)

/-- Settles O39: the answer is the four bytes joined, which after reset are zeros, and GET_I32 is of shape A. -/
theorem getI32ReadsFourBytes : Obligations.GetI32ReadsFourBytes := by
  have hread (off : BitVec 4) (s : State) (h : off.toNat ≤ 4) :
      exec (.getI32 off) s = .next (answered s (Memory.readWord s.buf off.toNat)) :=
    (exec_getI32 off s).trans (withAccess_inRange s _ (by omega))
  refine ⟨hread, fun off s h => ?_, fun off s h => (exec_getI32 off s).trans (withAccess_eq_faulted (by omega)),
    fun off => decode_packFields _ off _, fun _ => decode_stray_shapeA fun _ _ => rfl⟩
  rw [hread off _ h, applyReset_buf, Memory.readWord_nil]

/-- Settles O40: the answer is the two bytes joined and sign-extended, and GET_I16 is of shape A. -/
theorem getI16ReadsTwoBytesSigned : Obligations.GetI16ReadsTwoBytesSigned := by
  refine ⟨fun off s h => ?_, fun off s h => (exec_getI16 off s).trans (withAccess_eq_faulted (by omega)),
    fun off => decode_packFields _ off _, fun _ => decode_stray_shapeA fun _ _ => rfl⟩
  refine ⟨_, (exec_getI16 off s).trans (withAccess_inRange s _ (by omega)), ?_, ?_, fun j hlo hhi => ?_, ?_⟩
  · rw [sextHalf_extract _ (by decide), Memory.readHalf, halfOfBytes_byte0]
  · rw [sextHalf_extract _ (by decide), Memory.readHalf, halfOfBytes_byte1]
  · rw [sextHalf_high _ (by omega) hhi, sextHalf_high _ le_rfl (by decide)]
  · rw [sextHalf_toInt, sextHalf_low]

end Sys2Proof.Claims
end

section
/-! PROOFS. The buffer port family (42_buffer_port.md): the words of shape AB, and what BUF_CLR, BUF_WR and BUF_RD do
(R75 to R77). -/

namespace Sys2Proof

/-! The words of shape AB (30_encoding.md R37, R40) -/

/-- A word of a shape AB opcode with a bit of `data[31:8]` set is illegal. -/
theorem decode_stray_shapeAB {w : CmdWord} {op : BitVec 4} {i : BitVec 4 → Byte → Instr}
    (hshape : ∀ off data, decodeFields op off data = shapeAB off data i) (hop : opField w = op)
    (h : (dataField w).extractLsb' 8 24 ≠ 0#24) : decode w = .illegal .strayBits :=
  decode_of_opField hop ((hshape _ _).trans (shapeAB_eq_illegal.2 ⟨h, rfl⟩))

theorem decode_bufWr (off : BitVec 4) (b : Byte) :
    decode (packFields 0x6#4 off (b.setWidth 32)) = .command (.bufWr off b) := by
  rw [decode_packFields]
  exact shapeAB_eq_command.2 ⟨highBits_of_byte b, congrArg (Instr.bufWr off) (lowByte_of_data b)⟩

end Sys2Proof

namespace Sys2Proof.Machine

/-! The buffer of zeros -/

theorem exec_bufClr (s : State) : exec .bufClr s = .next (respondOk 0#32 (setBuf [] s)) := rfl

/-- A store of the word 0 sets each of its four cells to 0x00. -/
theorem Memory.read_writeWord_zero (m : Memory) {a k : Nat} (h : a ≤ k ∧ k < a + 4) :
    Memory.read (Memory.writeBytes m a (bytesOfWord 0#32)) k = 0x00#8 := by
  have hbytes : bytesOfWord 0#32 = List.replicate 4 0x00#8 := by decide
  rw [hbytes, Memory.read_writeBytes, List.length_replicate, if_pos h]
  exact List.getD_replicate _ (by omega)

/-- PUT_I32 of 0 at 0 and at 4 covers the whole buffer with zeros: a cell below 4 is set by the first and left by the
second. -/
theorem execAll_putI32_zeros (s : State) :
    ∃ u, execAll [.putI32 0#4 0#32, .putI32 4#4 0#32] s = .next u ∧
      ∀ k, k < 8 → Memory.read u.buf k = 0x00#8 := by
  refine ⟨_, rfl, fun k hk => ?_⟩
  by_cases h : k < 4
  · exact (Memory.read_writeBytes_outside _ 4 k (bytesOfWord 0#32) (.inl h)).trans
      (Memory.read_writeWord_zero s.buf (a := 0) (by omega))
  · exact Memory.read_writeWord_zero _ (a := 4) (by omega)

/-! The answer of BUF_RD -/

theorem zextByte_eq_append (b : Byte) : zextByte b = 0x000000#24 ++ b :=
  BitVec.setWidth_eq_append (by decide)

end Sys2Proof.Machine

namespace Sys2Proof.Claims

open Sys2Proof.Machine

/-- Settles O34: BUF_CLR leaves the buffer that lists no cell, the two stores of 0 cover all eight cells, and BUF_CLR is
of shape N. -/
theorem bufClrZeroesTheBuffer : Obligations.BufClrZeroesTheBuffer := by
  refine ⟨fun s => ⟨_, exec_bufClr s, rfl, fun k _ => Memory.read_nil k⟩, fun s => ?_, by decide,
    fun _ => decode_stray_shapeN fun _ _ => rfl⟩
  obtain ⟨u, hrun, hzero⟩ := execAll_putI32_zeros s
  exact ⟨_, u, exec_bufClr s, hrun, fun k hk => (hzero k hk).trans (Memory.read_nil k).symm⟩

/-- Settles O35: the one cell written holds the byte, and BUF_WR is of shape AB. -/
theorem bufWrStoresOneByte : Obligations.BufWrStoresOneByte := by
  refine ⟨fun off b s h => ?_, fun off b s h => (exec_bufWr off b s).trans (withAccess_eq_faulted (by omega)),
    fun off b => ?_, fun _ => decode_stray_shapeAB fun _ _ => rfl⟩
  · refine ⟨_, (exec_bufWr off b s).trans (withAccess_inRange s _ (by omega)), rfl, ?_⟩
    rintro _ rfl
    exact ⟨Memory.read_writeByte_same s.buf _ b, fun k hk => Memory.read_write_other s.buf b hk⟩
  · exact (congrArg decode (append_zeros_byte_eq_packFields _ off b)).trans (decode_bufWr off b)

/-- Settles O36: the answer is the byte zero-extended, which after reset is 0, and BUF_RD is of shape A. -/
theorem bufRdReadsOneByte : Obligations.BufRdReadsOneByte := by
  have hread (off : BitVec 4) (s : State) (h : off.toNat ≤ 7) :
      exec (.bufRd off) s = .next (answered s (0x000000#24 ++ Memory.read s.buf off.toNat)) := by
    rw [← zextByte_eq_append]
    exact (exec_bufRd off s).trans (withAccess_inRange s _ (by omega))
  refine ⟨hread, fun off s h => ?_, fun off s h => (exec_bufRd off s).trans (withAccess_eq_faulted (by omega)),
    fun off => decode_packFields _ off _, fun _ => decode_stray_shapeA fun _ _ => rfl⟩
  have hzero : 0x000000#24 ++ Memory.read [] off.toNat = 0#32 := by
    rw [Memory.read_nil]
    decide
  rw [hread off _ h, applyReset_buf, hzero]

end Sys2Proof.Claims
end

section
/-! PROOFS. The payloads (43_payload_formats.md): the eight bytes the commands of each layout leave in the buffer (R84 to
R89, R94). -/

namespace Sys2Proof.Machine

/-- Bytes stored into the cleared buffer have zeros below and above them (R94). -/
theorem Memory.payload_writeBytes_cleared (a : Nat) (bs : List Byte) (h : a + bs.length ≤ 8) :
    Memory.payload (Memory.writeBytes [] a bs) =
      List.replicate a 0x00#8 ++ bs ++ List.replicate (8 - (a + bs.length)) 0x00#8 := by
  have hcells : Memory.payload (Memory.writeBytes [] a bs) =
      (List.range 8).map (Memory.read (Memory.writeBytes [] a bs)) := rfl
  rw [hcells]
  refine List.ext_getElem (by simp; omega) fun k hk _ => ?_
  rw [List.getElem_map, List.getElem_range]
  rcases Nat.lt_or_ge k a with hbelow | hfrom
  · rw [Memory.read_writeBytes_outside _ _ _ _ (.inl hbelow), Memory.read_nil]
    simp [hbelow, unwrittenByte]
  · obtain ⟨i, rfl⟩ := Nat.exists_eq_add_of_le hfrom
    by_cases hinside : i < bs.length
    · rw [Memory.read_writeBytes_inside _ _ hinside]
      simp [hinside]
    · rw [Memory.read_writeBytes_outside _ _ _ _ (.inr (by omega)), Memory.read_nil]
      simp [List.getElem_append, hinside, unwrittenByte]

end Sys2Proof.Machine

namespace Sys2Proof.Claims

open Sys2Proof.Machine

/-- Settles O48: every address of a layout is in range, so the run computes to stores that keep `crc` and `flt`. The two
words of Move XY are one store of eight bytes; the stores of every other layout are adjacent, so one store too, into the
buffer that BUF_CLR cleared. -/
theorem payloadBuildLeavesItsBytes : Obligations.PayloadBuildLeavesItsBytes := by
  intro p s
  cases p with
  | home => exact ⟨_, rfl, Memory.payload_writeBytes_cleared 0 (bytesOfWord 1#32) (by decide), rfl, rfl⟩
  | moveXY x y => exact ⟨_, rfl, Memory.payload_writeBytes s.buf _ _ _ _ _ _ _ _, rfl, rfl⟩
  | moveZ f id | moveRotation f id =>
    have hlength : 0 + (bytesOfHalf f ++ [payloadMarker, nozzleId id]).length ≤ 8 := by simp [bytesOfHalf]
    exact ⟨_, rfl, Memory.payload_writeBytes_cleared 0 _ hlength, rfl, rfl⟩
  | actuateAir v id => exact ⟨_, rfl, Memory.payload_writeBytes_cleared 0 [v, nozzleId id] (by simp), rfl, rfl⟩
  | lightsDown v => exact ⟨_, rfl, Memory.payload_writeBytes_cleared 0 [v] (by simp), rfl, rfl⟩
  | lightsUp v => exact ⟨_, rfl, Memory.payload_writeBytes_cleared 4 [v] (by simp), rfl, rfl⟩

end Sys2Proof.Claims
end

section
/-! PROOFS. The exceptions family (60_exceptions.md): the status a word is answered with (R101 to R103), what a fault
does (R106), and that the fault record gates nothing (R107). -/

namespace Sys2Proof.Machine

/-! The status of a decoded word -/

/-- The status a decoded word is answered with: IllegalCommand for no command, OffsetRange for a command whose access
runs past the buffer, OK for any other command (R101 to R103). -/
def decodedStatus : Decoded → BitVec 2
  | .illegal _ => faultCode .illegalCommand
  | .command i => if accessLegal i then statusOk else faultCode .offsetRange

@[simp] theorem decodedStatus_illegal (why : IllegalReason) : decodedStatus (.illegal why) = 1#2 := rfl

@[simp] theorem decodedStatus_of_legal {i : Instr} (h : accessLegal i = true) : decodedStatus (.command i) = 0#2 := by
  rw [decodedStatus, if_pos h, statusOk]

@[simp] theorem decodedStatus_of_not_legal {i : Instr} (h : accessLegal i = false) :
    decodedStatus (.command i) = 2#2 := by
  simp [decodedStatus, h, faultCode]

/-- An access is not legal when it runs past the eighth cell (20_memory.md R23). -/
theorem accessLegal_eq_false_iff (i : Instr) :
    accessLegal i = false ↔ ∃ off n, accessOf i = some (off, n) ∧ 8 < off.toNat + n := by
  unfold accessLegal
  cases accessOf i with
  | none => simp
  | some access => simp [Prod.ext_iff]

theorem decodedStatus_eq_one_iff (d : Decoded) : decodedStatus d = 1#2 ↔ ∃ why, d = .illegal why := by
  cases d with
  | illegal why => simp
  | command i => cases h : accessLegal i <;> simp [h]

theorem decodedStatus_eq_zero_iff (d : Decoded) :
    decodedStatus d = 0#2 ↔ ∃ i, d = .command i ∧ accessLegal i = true := by
  cases d with
  | illegal why => simp
  | command i => cases h : accessLegal i <;> simp [h]

theorem decodedStatus_eq_two_iff (d : Decoded) :
    decodedStatus d = 2#2 ↔ ∃ i off n, d = .command i ∧ accessOf i = some (off, n) ∧ 8 < off.toNat + n := by
  simp only [exists_and_left, ← accessLegal_eq_false_iff]
  cases d with
  | illegal why => simp
  | command i => cases h : accessLegal i <;> simp [h]

/-! What a decoded word does -/

/-- All a decoded word can do: with status OK it has the effect of its command, with a fault's status it raises that
fault. -/
theorem performDecoded_cases (d : Decoded) (s : State) :
    (decodedStatus d = 0#2 ∧ ∃ i t, performDecoded d s = .next t ∧ OkEffect i s t) ∨
      (∃ cause, decodedStatus d = faultCode cause ∧ performDecoded d s = .next (raiseFault cause s)) := by
  cases d with
  | illegal why => exact .inr ⟨.illegalCommand, rfl, rfl⟩
  | command i =>
    obtain ⟨hlegal, t, ht, ok⟩ | ⟨hpast, hfault⟩ := exec_cases i s
    · exact .inl ⟨decodedStatus_of_legal hlegal, i, t, ht, ok⟩
    · exact .inr ⟨.offsetRange, decodedStatus_of_not_legal hpast, hfault⟩

/-- A decoded word is answered once, with its status. -/
theorem performDecoded_responds (d : Decoded) (s : State) :
    ∃ t data, performDecoded d s = .next t ∧ t.responses = s.responses ++ [⟨decodedStatus d, data⟩] := by
  obtain ⟨hstatus, i, t, ht, ok⟩ | ⟨cause, hstatus, hfault⟩ := performDecoded_cases d s
  · exact ⟨t, valueRead i s, ht, by rw [ok.answers, hstatus]⟩
  · exact ⟨_, 0#32, hfault, by rw [raiseFault_responses, hstatus]⟩

/-- A recorded fault stays recorded, whether the word faults or not (R106, R107). -/
theorem performDecoded_keeps_recorded_flt {d : Decoded} {s t : State} (hflt : s.flt ≠ 0#2)
    (h : performDecoded d s = .next t) : t.flt = s.flt := by
  obtain ⟨-, i, u, hu, ok⟩ | ⟨cause, -, hfault⟩ := performDecoded_cases d s
  · obtain rfl : u = t := Host.Outcome.next.inj (hu.symm.trans h)
    exact ok.flt
  · obtain rfl : raiseFault cause s = t := Host.Outcome.next.inj (hfault.symm.trans h)
    rw [raiseFault_flt, latchFault_of_ne cause hflt]

theorem faultCode_eq_one_or_two (cause : FaultCause) : faultCode cause = 1#2 ∨ faultCode cause = 2#2 := by
  cases cause with
  | illegalCommand => exact .inl rfl
  | offsetRange => exact .inr rfl

/-! The record `flt` gates nothing (R107) -/

/-- The range check does not look at `flt`, so an access whose effect does not either gives the same state but for
`flt`. -/
theorem withAccess_flt_independent {s : State} {f : BitVec 2} {effect effect' : Nat → State} (off : BitVec 4)
    (n : Nat) (h : ∀ a, effect' a = { effect a with flt := (effect' a).flt }) :
    ∃ t t', withAccess off n s effect = .next t ∧ withAccess off n { s with flt := f } effect' = .next t' ∧
      t' = { t with flt := t'.flt } := by
  by_cases hrange : off.toNat + n ≤ 8
  · exact ⟨_, _, withAccess_inRange _ _ hrange, withAccess_inRange _ _ hrange, h off.toNat⟩
  · exact ⟨_, _, withAccess_outOfRange _ _ hrange, withAccess_outOfRange _ _ hrange, rfl⟩

theorem exec_flt_independent (i : Instr) (s : State) (f : BitVec 2) :
    ∃ t t', exec i s = .next t ∧ exec i { s with flt := f } = .next t' ∧ t' = { t with flt := t'.flt } := by
  cases i with
  | crcInit | crcByte | crcBuf | crcRd | bufClr => exact ⟨_, _, rfl, rfl, rfl⟩
  | bufWr | bufRd | putI32 | putI16 | getI32 | getI16 =>
    simp only [exec_bufWr, exec_bufRd, exec_putI32, exec_putI16, exec_getI32, exec_getI16]
    exact withAccess_flt_independent _ _ fun _ => rfl

theorem performDecoded_flt_independent (d : Decoded) (s : State) (f : BitVec 2) :
    ∃ t t', performDecoded d s = .next t ∧ performDecoded d { s with flt := f } = .next t' ∧
      t' = { t with flt := t'.flt } := by
  cases d with
  | command i => exact exec_flt_independent i s f
  | illegal why => exact ⟨_, _, rfl, rfl, rfl⟩

end Sys2Proof.Machine

namespace Sys2Proof.Claims

open Sys2Proof.Machine

/-- The state the claims write out after a fault is the one the model's fault leaves, for either cause. -/
theorem raiseFault_eq_faulted (cause : FaultCause) (s : State) : raiseFault cause s = faulted s (faultCode cause) := rfl

/-- A word answered with a status other than OK leaves the state the claims write out after a fault. -/
theorem performDecoded_fault {d : Decoded} {s t : State} {r : Response} (h : performDecoded d s = .next t)
    (hr : t.responses = s.responses ++ [r]) (hne : r.status ≠ 0#2) :
    ∃ cause, r = ⟨faultCode cause, 0#32⟩ ∧ t = faulted s (faultCode cause) := by
  obtain ⟨-, i, u, hu, ok⟩ | ⟨cause, -, hfault⟩ := performDecoded_cases d s
  · obtain rfl : u = t := Host.Outcome.next.inj (hu.symm.trans h)
    obtain rfl : ⟨0#2, valueRead i s⟩ = r := by simpa [ok.answers] using hr
    exact absurd rfl hne
  · obtain rfl : raiseFault cause s = t := Host.Outcome.next.inj (hfault.symm.trans h)
    obtain rfl : ⟨faultCode cause, 0#32⟩ = r := by simpa using hr
    exact ⟨cause, rfl, raiseFault_eq_faulted cause s⟩

/-- Settles O13: the one response has the status of the decoded word. -/
theorem faultsExactlyWhenIllegalOrOutOfRange : Obligations.FaultsExactlyWhenIllegalOrOutOfRange := by
  intro s w rest hev
  rw [step_command hev]
  obtain ⟨t, data, ht, hresponses⟩ := performDecoded_responds (decode w) { s with events := rest }
  exact ⟨t, _, ht, hresponses, decodedStatus_eq_one_iff (decode w), decodedStatus_eq_two_iff (decode w),
    decodedStatus_eq_zero_iff (decode w)⟩

/-- Settles O14: only a raised fault answers with a status other than OK. -/
theorem faultLeavesAllButTheRecord : Obligations.FaultLeavesAllButTheRecord := by
  intro s t w rest r hev hstep hresponses hne
  rw [step_command hev] at hstep
  obtain ⟨cause, rfl, ht⟩ := performDecoded_fault hstep hresponses hne
  exact ⟨ht, rfl, faultCode_eq_one_or_two cause⟩

/-- Settles O15: `flt` is read only to latch a fault's code, which keeps a recorded one; reset writes 0. -/
theorem recordedFaultGatesNothing : Obligations.RecordedFaultGatesNothing := by
  refine ⟨fun s f w rest hev => ?_, fun s t w rest hev hflt hstep => ?_, fun s rest hev => ?_⟩
  · have hev' : ({ s with flt := f } : State).events = .command w :: rest := hev
    rw [step_command hev, step_command hev']
    exact performDecoded_flt_independent (decode w) { s with events := rest } f
  · rw [step_command hev] at hstep
    exact performDecoded_keeps_recorded_flt (s := { s with events := rest }) hflt hstep
  · exact ⟨_, step_reset hev, applyReset_flt _⟩

end Sys2Proof.Claims
end

section
/-! PROOFS. The reset family (70_reset_and_hazards.md): what the reset event does, and that no command clears `flt`
(R115). -/

namespace Sys2Proof.Claims

open Sys2Proof.Machine

/-- Settles O17: the reset event writes `crc`, `buf` and `flt` alone, the empty `buf` reading 0x00 at every cell; that
a command keeps a recorded fault is part of R107. -/
theorem resetEventClearsTheState : Obligations.ResetEventClearsTheState := by
  obtain ⟨-, command_keeps_recorded_flt, -⟩ := recordedFaultGatesNothing
  refine ⟨fun s rest hev => ?_, fun s t w rest hev hflt hstep => ?_⟩
  · exact ⟨_, step_reset hev, rfl, Memory.read_nil, applyReset_cfg _⟩
  · rwa [command_keeps_recorded_flt s t w rest hev hflt hstep]

end Sys2Proof.Claims
end

section
/-! PROOFS. The decoder and the encoder as inverses (30_encoding.md R35 to R40), the worked encodings (R45), the ranges
of the assembler (R43, R44), and the step on a decoded word (00_scope.md R5). -/

namespace Sys2Proof

/-- The word of a command decodes to it: its opcode selects its shape, whose unused bits are 0 in the word. -/
theorem decode_encode (i : Instr) : decode (encode i) = .command i := by
  cases i with
  | crcInit | crcBuf | crcRd | bufClr => exact decode_packFields _ _ _
  | crcByte b => exact decode_crcByte b
  | bufWr off b => exact decode_bufWr off b
  | putI32 off v => exact decode_packFields _ off v
  | putI16 off v => exact decode_putI16 off v
  | bufRd off | getI32 off | getI16 off => exact decode_packFields _ off _

/-- The numbers of a line are in the ranges of R43, as arithmetic, and LOAD8 has its eight bytes. -/
abbrev AsmLine.InRange : AsmLine → Prop
  | .crcInit | .crcBuf | .crcRd | .bufClr => True
  | .crcByte b => b ≤ 255
  | .bufWr off b => off ≤ 15 ∧ b ≤ 255
  | .bufRd off | .getI32 off | .getI16 off => off ≤ 15
  | .putI32 off v => off ≤ 15 ∧ -2147483648 ≤ v ∧ v ≤ 4294967295
  | .putI16 off v => off ≤ 15 ∧ -32768 ≤ v ∧ v ≤ 65535
  | .cksum bs => ∀ b ∈ bs, b ≤ 255
  | .load8 bs => bs.length = 8 ∧ ∀ b ∈ bs, b ≤ 255

theorem AsmLine.fits_iff (l : AsmLine) : l.fits = true ↔ l.InRange := by
  cases l <;> simp [AsmLine.fits, byteFits, offFits, halfFits, wordFits]

end Sys2Proof

namespace Sys2Proof.Machine

/-! A line assembles exactly when its numbers are in range (R43) -/

theorem assemble_of_inRange {l : AsmLine} (h : l.InRange) : assemble l = some (expandLine l) := by
  rw [assemble, if_pos (l.fits_iff.2 h)]

theorem assemble_of_not_inRange {l : AsmLine} (h : ¬ l.InRange) : assemble l = none := by
  rw [assemble, if_neg (mt l.fits_iff.1 h)]

/-! The operand made of a number in its range reads as the number -/

theorem asmByte_toNat {b : Nat} (h : b ≤ 255) : (asmByte b).toNat = b :=
  (BitVec.toNat_ofNat b 8).trans (Nat.mod_eq_of_lt (by omega))

theorem asmOff_toNat {off : Nat} (h : off ≤ 15) : (asmOff off).toNat = off :=
  (BitVec.toNat_ofNat off 4).trans (Nat.mod_eq_of_lt (by omega))

theorem map_asmByte_toNat {bs : List Nat} (h : ∀ b ∈ bs, b ≤ 255) : (bs.map asmByte).map BitVec.toNat = bs := by
  rw [List.map_map]
  exact (List.map_congr_left fun b hb => asmByte_toNat (h b hb)).trans bs.map_id'

/-- A pattern read signed for a negative number and unsigned for any other is the number, if the number is one of its
width in that reading (R42). -/
theorem ofInt_reads {w : Nat} {v : Int} (hlo : -2 ^ (w - 1) ≤ v) (hhi : v < 2 ^ w) (hw : 0 < w) :
    (v < 0 → (BitVec.ofInt w v).toInt = v) ∧ (0 ≤ v → ((BitVec.ofInt w v).toNat : Int) = v) := by
  refine ⟨fun hneg => BitVec.toInt_ofInt_eq_self hw hlo (hneg.trans (by positivity)), fun hpos => ?_⟩
  obtain ⟨n, rfl⟩ := Int.eq_ofNat_of_zero_le hpos
  rw [BitVec.ofInt_natCast, BitVec.toNat_ofNat, Nat.mod_eq_of_lt (by exact_mod_cast hhi)]

end Sys2Proof.Machine

namespace Sys2Proof.Claims

open Sys2Proof.Machine

/-- The fields of a command's word are those it is packed from, so only the text is left to assemble. -/
theorem workedRow_of_packFields {text : String} {i : Instr} {op off : BitVec 4} {data : Word} (w : CmdWord)
    (hw : w = packFields op off data) (hi : encode i = packFields op off data) (htext : assembleText text = some [w]) :
    workedRow text w i op off data := by
  subst hw
  refine ⟨htext, ?_, hi, opField_packFields _ _ _, offField_packFields _ _ _, dataField_packFields _ _ _⟩
  rw [← hi, decode_encode]

/-- Settles O2, command by command in the decoder's inverse `decode_encode`. -/
theorem decodeOfEncodeIsTheCommand : Obligations.DecodeOfEncodeIsTheCommand := decode_encode

/-- Settles O3: a word is packed from the fields its command is decoded from. -/
theorem encodeOfDecodeIsTheWord : Obligations.EncodeOfDecodeIsTheWord := fun _ _ => encode_of_decode

/-- Settles O7: a line assembles exactly when its numbers are in range, and then none of them is cut. -/
theorem assemblerNeverTruncates : Obligations.AssemblerNeverTruncates := by
  refine ⟨⟨rfl, rfl, rfl, rfl⟩, fun b hb => ⟨_, assemble_of_inRange hb, asmByte_toNat hb⟩,
    fun b hb => assemble_of_not_inRange (by omega),
    fun off b hoff hb => ⟨_, _, assemble_of_inRange ⟨hoff, hb⟩, asmOff_toNat hoff, asmByte_toNat hb⟩,
    fun off b h => assemble_of_not_inRange (by omega),
    fun off hoff => ⟨_, asmOff_toNat hoff, assemble_of_inRange hoff, assemble_of_inRange hoff,
      assemble_of_inRange hoff⟩,
    fun off h => ⟨assemble_of_not_inRange (by omega), assemble_of_not_inRange (by omega),
      assemble_of_not_inRange (by omega)⟩,
    fun off v hoff hlo hhi => ⟨_, _, assemble_of_inRange ⟨hoff, hlo, hhi⟩, asmOff_toNat hoff,
      ofInt_reads hlo (by omega) (by decide)⟩,
    fun off v h => assemble_of_not_inRange (by omega),
    fun off v hoff hlo hhi => ⟨_, _, assemble_of_inRange ⟨hoff, hlo, hhi⟩, asmOff_toNat hoff,
      ofInt_reads hlo (by omega) (by decide)⟩,
    fun off v h => assemble_of_not_inRange (by omega),
    fun bs hbs => ⟨_, assemble_of_inRange hbs, map_asmByte_toNat hbs⟩,
    fun bs ⟨b, hb, hbig⟩ => assemble_of_not_inRange fun hbs => absurd (hbs b hb) (by omega),
    fun bs hlength hbs => ⟨_, assemble_of_inRange ⟨hlength, hbs⟩, map_asmByte_toNat hbs⟩,
    fun bs h => assemble_of_not_inRange ?_⟩
  rintro ⟨hlength, hbs⟩
  obtain hbad | ⟨b, hb, hbig⟩ := h
  · exact hbad hlength
  · exact absurd (hbs b hb) (by omega)

/-- Settles O9: the step decodes the word and performs the command. -/
theorem stepPerformsTheDecodedCommand : Obligations.StepPerformsTheDecodedCommand := by
  intro s w rest i hev hi
  rw [step_command hev, hi, performDecoded, taken]

/-- Settles O10: a step with no event is idle. -/
theorem stepWithNothingIssuedChangesNothing : Obligations.StepWithNothingIssuedChangesNothing := fun _ => step_idle

/-- Settles O1: each text is assembled by evaluation, and its word and fields are those of the command. -/
theorem workedEncodingsOfEveryCommand : Obligations.WorkedEncodingsOfEveryCommand := by
  refine ⟨?_, ?_, ?_, ?_, ?_, ?_, ?_, ?_, ?_, ?_, ?_⟩ <;> exact workedRow_of_packFields _ (by decide) rfl (by decide)

end Sys2Proof.Claims
end

section
/-! PROOFS. Steps and runs: every step answers (70_reset_and_hazards.md R121, R122), keeps the invariant (10_state.md
R12, R13) and records the first fault (60_exceptions.md R106); and what a command reads and writes (10_state.md R18). -/

namespace Sys2Proof.Machine

/-! One response and one record for each word -/

/-- A decoded word is answered once; the record takes the response's status if it was 0, which an OK response leaves
0. -/
theorem performDecoded_records (d : Decoded) (s : State) :
    ∃ t r, performDecoded d s = .next t ∧ t.events = s.events ∧ t.responses = s.responses ++ [r] ∧
      t.flt = if s.flt = 0#2 then r.status else s.flt := by
  obtain ⟨-, i, t, ht, ok⟩ | ⟨cause, -, hfault⟩ := performDecoded_cases d s
  · refine ⟨t, _, ht, ok.events, ok.answers, ?_⟩
    rw [ok.flt]
    split
    · assumption
    · rfl
  · exact ⟨_, _, hfault, rfl, rfl, rfl⟩

/-- Every step answers a next state and takes one event, if there is one. -/
theorem step_completes (s : State) : ∃ t, step s = .next t ∧ t.events = s.events.tail := by
  match hev : s.events with
  | [] => exact ⟨s, step_idle hev, hev⟩
  | .command w :: rest =>
    obtain ⟨t, _, ht, hevents, -⟩ := performDecoded_records (decode w) { s with events := rest }
    exact ⟨t, (step_command hev).trans ht, hevents⟩
  | .reset :: rest => exact ⟨_, step_reset hev, rfl⟩

/-- A run of as many steps as there are events takes them all. -/
theorem run_completes (s : State) : ∃ t, core.run s.events.length s = .next t ∧ t.events = [] := by
  induction hn : s.events.length generalizing s with
  | zero => exact ⟨s, rfl, List.length_eq_zero_iff.1 hn⟩
  | succ n ih =>
    obtain ⟨t, ht, hevents⟩ := step_completes s
    obtain ⟨u, hu, hnone⟩ := ih t (by rw [hevents, List.length_tail, hn, Nat.add_sub_cancel])
    exact ⟨u, (run_succ ht).trans hu, hnone⟩

theorem firstFault_cons (r : Response) (rs : List Response) :
    firstFault (r :: rs) = if r.status = 0#2 then firstFault rs else r.status := rfl

theorem firstFault_eq_zero_iff (rs : List Response) : firstFault rs = 0#2 ↔ ∀ r ∈ rs, r.status = 0#2 := by
  induction rs with
  | nil => simp [firstFault]
  | cons r rs ih =>
    rw [firstFault_cons, List.forall_mem_cons, ← ih]
    split <;> simp [*]

/-- A run of command words answers each and records the first fault, if none was recorded before. -/
theorem run_commands_records (ws : List CmdWord) {s : State} {rest : List Event}
    (h : s.events = ws.map .command ++ rest) :
    ∃ t new, core.run ws.length s = .next t ∧ t.events = rest ∧ t.responses = s.responses ++ new ∧
      new.length = ws.length ∧ t.flt = if s.flt = 0#2 then firstFault new else s.flt := by
  induction ws generalizing s with
  | nil =>
    refine ⟨s, [], rfl, h, (List.append_nil _).symm, rfl, ?_⟩
    split
    · assumption
    · rfl
  | cons w ws ih =>
    obtain ⟨t, r, ht, hevents, hresponses, hflt⟩ :=
      performDecoded_records (decode w) { s with events := ws.map .command ++ rest }
    obtain ⟨u, new, hrun, hrest, hnew, hlength, hrecord⟩ := ih hevents
    refine ⟨u, r :: new, (run_succ ((step_command h).trans ht)).trans hrun, hrest, ?_, congrArg (· + 1) hlength, ?_⟩
    · rw [hnew, hresponses, List.append_assoc, List.singleton_append]
    · rw [hrecord, hflt, firstFault_cons]
      by_cases hs : s.flt = 0#2 <;> simp [hs]

/-! The invariant -/

theorem Response.legal_of_ok (data : Word) : Response.legal ⟨0#2, data⟩ = true := by
  simp [Response.legal, statusOk]

theorem Response.legal_of_fault (cause : FaultCause) : Response.legal ⟨faultCode cause, 0#32⟩ = true := by
  simp [Response.legal]

/-- A state that gives one more legal response and keeps the other two parts of the invariant keeps it whole. -/
theorem State.Inv.of_responds {s t : State} {r : Response} (h : s.Inv)
    (hwf : Memory.wf s.buf = true → Memory.wf t.buf = true) (hflt : s.flt ≠ 3#2 → t.flt ≠ 3#2)
    (hresponses : t.responses = s.responses ++ [r]) (hr : r.legal = true) : t.Inv := by
  obtain ⟨hbuf, hrecord, hlegal⟩ := h
  refine ⟨hwf hbuf, hflt hrecord, ?_⟩
  rw [hresponses, List.forall_mem_append, List.forall_mem_singleton]
  exact ⟨hlegal, hr⟩

theorem performDecoded_keeps_inv {d : Decoded} {s t : State} (hs : s.Inv) (h : performDecoded d s = .next t) :
    t.Inv := by
  obtain ⟨-, i, u, hu, ok⟩ | ⟨cause, -, hfault⟩ := performDecoded_cases d s
  · obtain rfl : u = t := Host.Outcome.next.inj (hu.symm.trans h)
    exact hs.of_responds ok.wf (fun hflt => ok.flt ▸ hflt) ok.answers (Response.legal_of_ok _)
  · obtain rfl : raiseFault cause s = t := Host.Outcome.next.inj (hfault.symm.trans h)
    exact hs.of_responds id (latchFault_ne_three cause) (raiseFault_responses cause s) (Response.legal_of_fault cause)

/-- Reset empties the buffer, clears the record and answers nothing. -/
theorem applyReset_inv {s : State} (hs : s.Inv) : (applyReset s).Inv := by
  obtain ⟨-, -, hlegal⟩ := hs
  exact ⟨Memory.wf_nil, by simp, hlegal⟩

theorem step_keeps_inv {s t : State} (hs : s.Inv) (h : step s = .next t) : t.Inv := by
  match hev : s.events with
  | [] =>
    obtain rfl : s = t := Host.Outcome.next.inj ((step_idle hev).symm.trans h)
    exact hs
  | .command w :: rest =>
    exact performDecoded_keeps_inv (s := { s with events := rest }) hs ((step_command hev).symm.trans h)
  | .reset :: rest =>
    obtain rfl : _ = t := Host.Outcome.next.inj ((step_reset hev).symm.trans h)
    exact applyReset_inv (s := { s with events := rest }) hs

/-! What a command reads (R18) -/

/-- The value a command answers is one of the accumulator and the cells it reads. -/
theorem valueRead_congr {i : Instr} {s s' : State} (hcrc : readsCrc i = true → s.crc = s'.crc)
    (hcells : ∀ k, readsCell i k = true → Memory.read s.buf k = Memory.read s'.buf k) :
    valueRead i s = valueRead i s' := by
  cases i with
  | crcInit | crcByte | crcBuf | bufClr | bufWr | putI32 | putI16 => rfl
  | crcRd => rw [valueRead, valueRead, hcrc rfl]
  | bufRd off => rw [valueRead, valueRead, hcells _ (by simp [readsCell])]
  | getI32 off =>
    rw [valueRead, valueRead, hcells off.toNat (by simp [readsCell]), hcells (off.toNat + 1) (by simp [readsCell]),
      hcells (off.toNat + 2) (by simp [readsCell]), hcells (off.toNat + 3) (by simp [readsCell])]
  | getI16 off =>
    rw [valueRead, valueRead, hcells off.toNat (by simp [readsCell]), hcells (off.toNat + 1) (by simp [readsCell])]

theorem Memory.payload_congr {m n : Memory} (h : ∀ k, k < 8 → Memory.read m k = Memory.read n k) :
    Memory.payload m = Memory.payload n := by
  simp [Memory.payload, h]

/-- The accumulator a command sets depends on the accumulator, the table and the cells it reads. -/
theorem exec_crc_congr {i : Instr} {s s' t t' : State} (hcrc : readsCrc i = true → s.crc = s'.crc)
    (htable : readsTable i = true → s.cfg = s'.cfg)
    (hcells : ∀ k, readsCell i k = true → Memory.read s.buf k = Memory.read s'.buf k) (hw : writesCrc i = true)
    (h : exec i s = .next t) (h' : exec i s' = .next t') : t.crc = t'.crc := by
  cases i with
  | crcRd | bufClr | bufWr | bufRd | putI32 | putI16 | getI32 | getI16 => simp [writesCrc] at hw
  | crcInit =>
    cases h
    cases h'
    rfl
  | crcByte b =>
    cases h
    cases h'
    simp [hcrc rfl, htable rfl]
  | crcBuf =>
    cases h
    cases h'
    simp [htable rfl, Memory.payload_congr fun k hk => hcells k (by simpa [readsCell] using hk)]

/-- A command that writes the accumulator makes no access. -/
theorem accessLegal_of_writesCrc {i : Instr} (hw : writesCrc i = true) : accessLegal i = true := by
  cases i with
  | crcInit | crcByte | crcBuf => rfl
  | crcRd | bufClr | bufWr | bufRd | putI32 | putI16 | getI32 | getI16 => simp [writesCrc] at hw

/-- A cell inside the bytes written holds its byte, whatever the memory was. -/
theorem Memory.read_writeBytes_congr (m n : Memory) {a k : Nat} {bs : List Byte} (h : a ≤ k ∧ k < a + bs.length) :
    Memory.read (Memory.writeBytes m a bs) k = Memory.read (Memory.writeBytes n a bs) k := by
  rw [Memory.read_writeBytes, Memory.read_writeBytes, if_pos h, if_pos h]

/-- The command stores the bytes `bs` from address `a` up, from every state, and writes no other cell. -/
structure StoresBytes (i : Instr) (a : Nat) (bs : List Byte) : Prop where
  inside : a + bs.length ≤ 8
  exec_eq (s : State) : exec i s = .next (respondOk 0#32 (setBuf (Memory.writeBytes s.buf a bs) s))
  writes (k : Nat) : writesCell i k = true ↔ a ≤ k ∧ k < a + bs.length

theorem storesBytes_bufWr {off : BitVec 4} (b : Byte) (h : off.toNat + 1 ≤ 8) :
    StoresBytes (.bufWr off b) off.toNat [b] :=
  ⟨h, fun s => (exec_bufWr off b s).trans (withAccess_inRange s _ h), fun k => by simp [writesCell]; omega⟩

theorem storesBytes_putI32 {off : BitVec 4} (v : Word) (h : off.toNat + 4 ≤ 8) :
    StoresBytes (.putI32 off v) off.toNat (bytesOfWord v) :=
  ⟨h, fun s => (exec_putI32 off v s).trans (withAccess_inRange s _ h), fun _ => decide_eq_true_iff⟩

theorem storesBytes_putI16 {off : BitVec 4} (v : Half) (h : off.toNat + 2 ≤ 8) :
    StoresBytes (.putI16 off v) off.toNat (bytesOfHalf v) :=
  ⟨h, fun s => (exec_putI16 off v s).trans (withAccess_inRange s _ h), fun _ => decide_eq_true_iff⟩

/-- The range of a command's access, as arithmetic. -/
theorem accessLegal_iff {i : Instr} {off : BitVec 4} {n : Nat} (hi : accessOf i = some (off, n)) :
    accessLegal i = true ↔ off.toNat + n ≤ 8 := by
  rw [accessLegal, hi, decide_eq_true_iff]

theorem StoresBytes.cell_congr {i : Instr} {a : Nat} {bs : List Byte} {s s' t t' : State} {k : Nat}
    (hi : StoresBytes i a bs) (hw : writesCell i k = true) (h : exec i s = .next t)
    (h' : exec i s' = .next t') : Memory.read t.buf k = Memory.read t'.buf k := by
  obtain rfl := Host.Outcome.next.inj ((hi.exec_eq s).symm.trans h)
  obtain rfl := Host.Outcome.next.inj ((hi.exec_eq s').symm.trans h')
  exact Memory.read_writeBytes_congr s.buf s'.buf ((hi.writes k).1 hw)

/-- A cell a command writes depends on no state at all. -/
theorem exec_cell_congr {i : Instr} {s s' t t' : State} {k : Nat} (hlegal : accessLegal i = true)
    (hw : writesCell i k = true) (h : exec i s = .next t) (h' : exec i s' = .next t') :
    Memory.read t.buf k = Memory.read t'.buf k := by
  cases i with
  | crcInit | crcByte | crcBuf | crcRd | bufRd | getI32 | getI16 => simp [writesCell] at hw
  | bufClr =>
    cases h
    cases h'
    rfl
  | bufWr off b => exact (storesBytes_bufWr b ((accessLegal_iff rfl).1 hlegal)).cell_congr hw h h'
  | putI32 off v => exact (storesBytes_putI32 v ((accessLegal_iff rfl).1 hlegal)).cell_congr hw h h'
  | putI16 off v => exact (storesBytes_putI16 v ((accessLegal_iff rfl).1 hlegal)).cell_congr hw h h'

end Sys2Proof.Machine

namespace Sys2Proof.Claims

open Sys2Proof.Machine

/-- Settles O19: a step is idle, performs a word or resets, and each keeps the three parts of the invariant. -/
theorem everyStepKeepsTheInvariant : Obligations.EveryStepKeepsTheInvariant := fun _ _ => step_keeps_inv

/-- Settles O20: the buffer lists no cell, no fault is recorded and nothing was answered. -/
theorem resetMeetsTheInvariant : Obligations.ResetMeetsTheInvariant :=
  ⟨Memory.wf_nil, by decide, List.forall_mem_nil _⟩

/-- Settles O11, by induction on the number of events. -/
theorem everyRunCompletes : Obligations.EveryRunCompletes := by
  refine ⟨fun s => ?_, run_completes⟩
  obtain ⟨t, ht, -⟩ := step_completes s
  exact ⟨t, ht⟩

/-- Settles O16, by induction on the words. -/
theorem firstFaultIsTheOneRecorded : Obligations.FirstFaultIsTheOneRecorded := by
  intro ws s rest h
  obtain ⟨t, new, hrun, hevents, hresponses, hlength, hflt⟩ := run_commands_records ws h
  refine ⟨t, new, hrun, hevents, hresponses, hlength, hflt, fun hzero => ?_⟩
  rw [if_pos hzero] at hflt
  rw [← firstFault_eq_zero_iff, ← hflt]
  exact decide_eq_true_iff

/-- Settles O22: an OK answer has its command's effect, and a fault writes `flt` alone. -/
theorem commandsWriteOnlyTheirColumns : Obligations.CommandsWriteOnlyTheirColumns := by
  intro i s
  obtain ⟨-, t, ht, ok⟩ | ⟨-, hfault⟩ := exec_cases i s
  · exact ⟨t, _, ht, ok.answers, ok.events, ok.cfg, ok.crc, fun k hw hk => ok.cells k hk hw, ok.buf,
      fun _ => ok.flt, fun hne => absurd rfl hne⟩
  · exact ⟨_, _, hfault, rfl, rfl, rfl, fun _ => rfl, fun _ _ _ => rfl, fun _ => rfl,
      fun hok => absurd hok (faultCode_ne_zero .offsetRange), fun _ => ⟨rfl, rfl⟩⟩

/-- Settles O23: an access out of range faults in both states, and in range the answer, the accumulator and the cells
written are those of what the command reads. -/
theorem commandsReadOnlyTheirColumns : Obligations.CommandsReadOnlyTheirColumns := by
  intro i s s' hcrc htable hcells
  obtain ⟨hlegal, t, ht, ok⟩ | ⟨hbad, hfault⟩ := exec_cases i s
  · obtain ⟨t', ht', ok'⟩ := exec_okEffect s' hlegal
    refine ⟨t, t', _, ht, ht', ok.answers, ?_, fun hw => exec_crc_congr hcrc htable hcells hw ht ht',
      fun _ k hw => exec_cell_congr hlegal hw ht ht'⟩
    rw [valueRead_congr hcrc hcells]
    exact ok'.answers
  · obtain ⟨hlegal, -⟩ | ⟨-, hfault'⟩ := exec_cases i s'
    · exact absurd (hlegal.symm.trans hbad) (by decide)
    · refine ⟨_, _, _, hfault, hfault', rfl, rfl, fun hw => ?_, fun hok => absurd hok (faultCode_ne_zero .offsetRange)⟩
      exact absurd ((accessLegal_of_writesCrc hw).symm.trans hbad) (by decide)

end Sys2Proof.Claims
end

section
/-! PROOFS. The checksum as a function (40_crc.md): its laws for every TABLE (R60), and TABLE_CCITT and the bit-serial
form (R54, R62). -/

namespace Sys2Proof.Machine

/-! The laws of the checksum (R60) -/

/-- From the accumulator 0 a step is the table entry of the byte. -/
theorem crcStep_init (table : Table) (b : Byte) : crcStep table 0x0000#16 b = tableRead table b := by
  have hhigh : highByte 0x0000#16 = 0x00#8 := by decide
  have hshifted : lowByte 0x0000#16 ++ 0x00#8 = 0x0000#16 := by decide
  rw [crcStep, hhigh, hshifted, BitVec.xor_zero, BitVec.xor_zero]

theorem checksum_singleton (table : Table) (b : Byte) : checksum table [b] = tableRead table b :=
  crcStep_init table b

theorem crcFold_append (table : Table) (r : Half) (xs ys : List Byte) :
    crcFold table r (xs ++ ys) = crcFold table (crcFold table r xs) ys :=
  List.foldl_append

theorem checksum_append (table : Table) (xs ys : List Byte) :
    checksum table (xs ++ ys) = crcFold table (checksum table xs) ys :=
  crcFold_append table 0x0000#16 xs ys

/-! TABLE_CCITT by its recurrence (R54) -/

/-- The entry the recurrence of R54 gives for an index. -/
def recurrenceEntry (n : Nat) : Half := serialShift8 (BitVec.ofNat 8 n ++ 0x00#8)

/-- The 256 entries are compared in the four parts they are printed in. -/
theorem tableCcittEntries_eq_recurrence : tableCcittEntries = (List.range' 0 256).map recurrenceEntry := by
  have h0 : tableCcittPart0 = (List.range' 0 64).map recurrenceEntry := by decide
  have h1 : tableCcittPart1 = (List.range' 64 64).map recurrenceEntry := by decide
  have h2 : tableCcittPart2 = (List.range' 128 64).map recurrenceEntry := by decide
  have h3 : tableCcittPart3 = (List.range' 192 64).map recurrenceEntry := by decide
  have hjoin (m n : Nat) : List.range' 0 m ++ List.range' m n = List.range' 0 (m + n) := by
    simpa using List.range'_append_1 (s := 0) (m := m) (n := n)
  rw [tableCcittEntries, h0, h1, h2, h3, ← List.map_append, ← List.map_append, ← List.map_append, hjoin, hjoin, hjoin]

theorem tableRead_tableCcitt (i : Byte) : tableRead tableCcitt i = serialShift8 (i ++ 0x00#8) := by
  simp [tableRead, tableCcitt, tableCcittEntries_eq_recurrence, recurrenceEntry]

/-! The bit-serial form (R62) -/

theorem serialShift_eq_xor (t : Half) : serialShift t = (t <<< 1) ^^^ bif t.getMsbD 0 then 0x1021#16 else 0#16 := by
  rw [serialShift]
  cases t.getMsbD 0 <;> simp

/-- A shift is linear: the exclusive-or of two values takes the polynomial exactly when one of them does. -/
theorem serialShift_xor (x y : Half) : serialShift (x ^^^ y) = serialShift x ^^^ serialShift y := by
  have hpoly (a b : Bool) : (bif a ^^ b then 0x1021#16 else 0#16) =
      (bif a then 0x1021#16 else 0#16) ^^^ bif b then 0x1021#16 else 0#16 := by
    cases a <;> cases b <;> rfl
  rw [serialShift_eq_xor, serialShift_eq_xor x, serialShift_eq_xor y, BitVec.getMsbD_xor, hpoly,
    BitVec.shiftLeft_xor_distrib]
  ac_rfl

theorem serialShift8_xor (x y : Half) : serialShift8 (x ^^^ y) = serialShift8 x ^^^ serialShift8 y := by
  simp only [serialShift8, serialShift_xor]

/-- Eight shifts of a byte below a zero byte never meet the polynomial: the byte moves up. -/
theorem serialShift8_lowByte (b : Byte) : serialShift8 (0x00#8 ++ b) = b ++ 0x00#8 := by
  have hshift (n : Nat) (hn : n < 8) : serialShift ((0x00#8 ++ b) <<< n) = (0x00#8 ++ b) <<< (n + 1) := by
    have hmsb : ((0x00#8 ++ b) <<< n).getMsbD 0 = false := by
      rw [BitVec.getMsbD_shiftLeft, BitVec.getMsbD_append, if_neg (by omega), BitVec.getMsbD_zero]
    rw [serialShift_eq_xor, hmsb, BitVec.shiftLeft_add]
    exact BitVec.xor_zero
  calc serialShift8 (0x00#8 ++ b)
      = serialShift8 ((0x00#8 ++ b) <<< 0) := by rw [BitVec.shiftLeft_zero]
    _ = (0x00#8 ++ b) <<< 8 := by simp only [serialShift8, hshift, Nat.reduceLT, Nat.reduceAdd]
    _ = b ++ 0x00#8 := by rw [shiftLeft_eight, lowByte, BitVec.extractLsb'_append_eq_right]

theorem highByte_append_lowByte (r : Half) : highByte r ++ lowByte r = r :=
  (BitVec.extractLsb'_append_extractLsb'_eq_extractLsb' rfl).trans BitVec.extractLsb'_eq_self

/-- Eight shifts of the high byte are the table entry, those of the low byte its place in the next accumulator. -/
theorem crcStep_tableCcitt (r : Half) (b : Byte) : crcStep tableCcitt r b = crcStepSerial r b := by
  have hsplit : r ^^^ (b ++ 0x00#8) = ((b ^^^ highByte r) ++ 0x00#8) ^^^ (0x00#8 ++ lowByte r) := by
    conv_lhs => rw [← highByte_append_lowByte r]
    rw [BitVec.xor_append, BitVec.xor_append]
    simp [BitVec.xor_comm b]
  rw [crcStep, tableRead_tableCcitt, crcStepSerial, hsplit, serialShift8_xor, serialShift8_lowByte]

/-- Tables that read alike at every index are equal. -/
theorem table_ext {table table' : Table} (h : ∀ i, tableRead table i = tableRead table' i) : table = table' := by
  refine Vector.ext fun n hn => ?_
  have hn' : (BitVec.ofNat 8 n).toNat = n := (BitVec.toNat_ofNat n 8).trans (Nat.mod_eq_of_lt hn)
  simpa [tableRead, hn'] using h (BitVec.ofNat 8 n)

/-- The step from the accumulator 0 reads off each entry, so no other table steps as the bit-serial form does. -/
theorem crcStep_eq_serial_iff (table : Table) :
    (∀ (r : Half) (b : Byte), crcStep table r b = crcStepSerial r b) ↔ table = tableCcitt := by
  constructor
  · intro h
    refine table_ext fun i => ?_
    rw [← crcStep_init, ← crcStep_init, h, crcStep_tableCcitt]
  · rintro rfl
    exact crcStep_tableCcitt

end Sys2Proof.Machine

namespace Sys2Proof.Claims

open Sys2Proof.Machine

/-- Settles O28: a checksum is a fold of `crc_step`, which starts at a table entry and reads two bytes of `r`. -/
theorem checksumLawsForEveryTable : Obligations.ChecksumLawsForEveryTable := by
  refine fun table => ⟨rfl, checksum_singleton table, fun b0 b1 => ?_, checksum_append table,
    fun r r' b b' hindex hlow => ?_⟩
  · rw [← List.singleton_append, checksum_append, checksum_singleton]
    rfl
  · rw [crcStep, crcStep, highByte, highByte, lowByte, lowByte, hindex, hlow]

/-- Settles O31, comparing the printed entries with the recurrence part by part. -/
theorem tableCcittIsItsRecurrence : Obligations.TableCcittIsItsRecurrence := tableRead_tableCcitt

/-- Settles O32: the shift is linear, so a step splits into that of the index and that of the low byte. -/
theorem bitSerialFormIsTableCcittAlone : Obligations.BitSerialFormIsTableCcittAlone :=
  ⟨crcStep_eq_serial_iff, by decide⟩

end Sys2Proof.Claims
end

section
/-! PROOFS. Streams: the streaming law (40_crc.md R59, R61), and the one accumulator (70_reset_and_hazards.md R118,
R119). -/

namespace Sys2Proof.Machine

/-! Runs of words that do not start a checksum (R59) -/

/-- A command of a stream is a CRC_BYTE or leaves the accumulator alone. -/
theorem stream_command_cases {i : Instr} (h : keepsStream (.command i) = true) :
    (∃ b, i = .crcByte b) ∨ writesCrc i = false ∧ foldedBytes (.command i) = [] := by
  cases i with
  | crcInit | crcBuf => simp [keepsStream] at h
  | crcByte b => exact .inl ⟨b, rfl⟩
  | crcRd | bufClr | bufWr | bufRd | putI32 | putI16 | getI32 | getI16 => exact .inr ⟨rfl, rfl⟩

/-- A command that does not write the accumulator, faulting or not, keeps it. -/
theorem exec_keeps_crc {i : Instr} (hi : writesCrc i = false) (s : State) :
    ∃ t, exec i s = .next t ∧ t.crc = s.crc ∧ t.cfg = s.cfg ∧ t.events = s.events := by
  obtain ⟨-, t, ht, ok⟩ | ⟨-, hfault⟩ := exec_cases i s
  · exact ⟨t, ht, ok.crc hi, ok.cfg, ok.events⟩
  · exact ⟨_, hfault, rfl, rfl, rfl⟩

/-- A word of a stream, faulting or not, folds its bytes into the accumulator. -/
theorem performDecoded_folds {d : Decoded} (hd : keepsStream d = true) (s : State) :
    ∃ t, performDecoded d s = .next t ∧ t.crc = crcFold s.cfg.table s.crc (foldedBytes d) ∧ t.cfg = s.cfg ∧
      t.events = s.events := by
  cases d with
  | illegal why => exact ⟨_, rfl, rfl, rfl, rfl⟩
  | command i =>
    obtain ⟨b, rfl⟩ | ⟨hcrc, hfolded⟩ := stream_command_cases hd
    · exact ⟨_, rfl, rfl, rfl, rfl⟩
    · rw [hfolded]
      exact exec_keeps_crc hcrc s

/-- A run of the words of a stream folds their bytes into the accumulator, in order. -/
theorem run_stream (ws : List CmdWord) {s : State} {rest : List Event} (hws : ∀ w ∈ ws, keepsStream (decode w) = true)
    (h : s.events = ws.map .command ++ rest) :
    ∃ t, core.run ws.length s = .next t ∧
      t.crc = crcFold s.cfg.table s.crc (ws.flatMap fun w => foldedBytes (decode w)) ∧ t.events = rest := by
  induction ws generalizing s with
  | nil => exact ⟨s, rfl, rfl, h⟩
  | cons w ws ih =>
    obtain ⟨hw, hws⟩ := List.forall_mem_cons.1 hws
    obtain ⟨t, ht, hcrc, hcfg, hevents⟩ := performDecoded_folds hw { s with events := ws.map .command ++ rest }
    obtain ⟨u, hrun, hfold, hrest⟩ := ih hws hevents
    refine ⟨u, (run_succ ((step_command h).trans ht)).trans hrun, ?_, hrest⟩
    rw [hfold, hcrc, hcfg, List.flatMap_cons, crcFold_append]

/-- A run of one step more, the step at its end. -/
theorem run_succ_last {s t u : State} {n : Nat} (hrun : core.run n s = .next t) (hstep : step t = .next u) :
    core.run (n + 1) s = .next u := by
  induction n generalizing s with
  | zero =>
    obtain rfl : s = t := Host.Outcome.next.inj hrun
    exact run_succ hstep
  | succ n ih =>
    obtain ⟨s', hs', -⟩ := step_completes s
    rw [run_succ hs'] at hrun ⊢
    exact ih hrun

/-- CRC_RD as the host's next word answers the accumulator. -/
theorem step_crcRd {s : State} {rest : List Event} (h : s.events = .command 0x4000000000#40 :: rest) :
    step s = .next (respondOk (s.crc.setWidth 32) { s with events := rest }) := by
  have hd : decode 0x4000000000#40 = .command .crcRd := by decide
  rw [step_command h, hd]
  rfl

/-- The event starts a checksum in `s` that has already folded the bytes `bs`: a CRC_INIT and a reset start an empty
one, a CRC_BUF that of the buffer (R61). -/
def StartsStream (start : Event) (s : State) (bs : List Byte) : Prop :=
  ((start = .command 0x1000000000#40 ∨ start = .reset) ∧ bs = []) ∨
    (start = .command 0x3000000000#40 ∧ bs = Memory.payload s.buf)

theorem step_startsStream {s : State} {start : Event} {rest : List Event} {bs : List Byte}
    (hstart : StartsStream start s bs) (h : s.events = start :: rest) :
    ∃ t, step s = .next t ∧ t.crc = checksum s.cfg.table bs ∧ t.cfg = s.cfg ∧ t.events = rest := by
  obtain ⟨rfl | rfl, rfl⟩ | ⟨rfl, rfl⟩ := hstart
  · have hd : decode 0x1000000000#40 = .command .crcInit := by decide
    rw [step_command h, hd]
    exact ⟨_, rfl, rfl, rfl, rfl⟩
  · exact ⟨_, step_reset h, rfl, rfl, rfl⟩
  · have hd : decode 0x3000000000#40 = .command .crcBuf := by decide
    rw [step_command h, hd]
    exact ⟨_, rfl, rfl, rfl, rfl⟩

/-- A stream, from its start to the CRC_RD that follows it: the accumulator is then the checksum of the bytes folded,
and CRC_RD answers it. -/
theorem run_stream_crcRd {s : State} {start : Event} {bs : List Byte} (ws : List CmdWord) {rest : List Event}
    (hstart : StartsStream start s bs) (hws : ∀ w ∈ ws, keepsStream (decode w) = true)
    (h : s.events = start :: (ws.map .command ++ .command 0x4000000000#40 :: rest)) :
    ∃ t, core.run (ws.length + 1) s = .next t ∧
      t.crc = checksum s.cfg.table (bs ++ ws.flatMap fun w => foldedBytes (decode w)) ∧
      step t = .next (respondOk (t.crc.setWidth 32) { t with events := rest }) := by
  obtain ⟨s₁, hs₁, hcrc, hcfg, hevents⟩ := step_startsStream hstart h
  obtain ⟨t, hrun, hfold, hrest⟩ := run_stream ws hws hevents
  refine ⟨t, (run_succ hs₁).trans hrun, ?_, step_crcRd hrest⟩
  rw [hfold, hcrc, hcfg, checksum_append]

/-! Commands in sequence -/

/-- What each command of a sequence keeps, the sequence keeps. -/
theorem execAll_preserves {P : State → Prop} {is : List Instr} {s : State}
    (his : ∀ i ∈ is, ∀ s, P s → ∃ t, exec i s = .next t ∧ P t) (hs : P s) : ∃ t, execAll is s = .next t ∧ P t := by
  induction is generalizing s with
  | nil => exact ⟨s, rfl, hs⟩
  | cons i is ih =>
    obtain ⟨hi, his⟩ := List.forall_mem_cons.1 his
    obtain ⟨t, ht, hPt⟩ := hi s hs
    rw [execAll_cons ht]
    exact ih his hPt

/-- CRC_BYTEs after a CRC_BUF continue from the buffer's checksum (70_reset_and_hazards.md R118). -/
theorem execAll_crcBuf_crcBytes (bs : List Byte) (s : State) :
    ∃ t, execAll (.crcBuf :: bs.map .crcByte) s = .next t ∧
      t.crc = checksum s.cfg.table (Memory.payload s.buf ++ bs) := by
  obtain ⟨t, hrun, hcrc, -⟩ :=
    execAll_crcBytes bs [] (respondOk 0#32 (setCrc (checksum s.cfg.table (Memory.payload s.buf)) s))
  rw [List.append_nil] at hrun
  refine ⟨t, (execAll_cons (exec_crcBuf rfl)).trans hrun, ?_⟩
  rw [hcrc, checksum_append]
  rfl

end Sys2Proof.Machine

namespace Sys2Proof.Claims

open Sys2Proof.Machine

/-- Settles O29, by induction on the words between the start and CRC_RD. -/
theorem streamedBytesGiveTheirChecksum : Obligations.StreamedBytesGiveTheirChecksum := by
  intro s start ws rest hstart hws h
  obtain ⟨t, hrun, hcrc, hstep⟩ := run_stream_crcRd ws (.inl ⟨hstart, rfl⟩) hws h
  rw [List.nil_append] at hcrc
  refine ⟨t, _, hrun, hcrc, hstep, rfl, ?_⟩
  rw [hcrc]
  simp [lastOk]

/-- Settles O30: each run answers the checksum of the bytes its start and its words fold, and these are the same. -/
theorem crcRdDependsOnTheFoldedBytesAlone : Obligations.CrcRdDependsOnTheFoldedBytesAlone := by
  intro s s' start start' ws ws' rest rest' hcfg hstarts hws hws' hbytes h h'
  obtain ⟨bs, hstart, hstart'⟩ : ∃ bs, StartsStream start s bs ∧ StartsStream start' s' bs := by
    obtain ⟨hstart, hstart'⟩ | ⟨hstart, hstart', hbuf⟩ := hstarts
    · exact ⟨[], .inl ⟨hstart, rfl⟩, .inl ⟨hstart', rfl⟩⟩
    · exact ⟨_, .inr ⟨hstart, rfl⟩, .inr ⟨hstart', hbuf⟩⟩
  obtain ⟨t, hrun, hcrc, hstep⟩ := run_stream_crcRd ws hstart hws h
  obtain ⟨t', hrun', hcrc', hstep'⟩ := run_stream_crcRd ws' hstart' hws' h'
  have hsame : t'.crc = t.crc := by rw [hcrc, hcrc', hcfg, hbytes]
  refine ⟨_, _, t.crc.setWidth 32, run_succ_last hrun hstep, run_succ_last hrun' hstep', ?_, ?_⟩
  · simp [lastOk]
  · simp [lastOk, hsame]

/-- Settles O46: CRC_BUF and CRC_INIT set the accumulator without reading it, and the bytes fold on from there. -/
theorem crcBufAndStreamsShareTheAccumulator : Obligations.CrcBufAndStreamsShareTheAccumulator := by
  refine ⟨fun s r bs => ?_, fun s r bs => ?_⟩
  · obtain ⟨t, ht, hcrc⟩ := execAll_crcBuf_crcBytes bs s
    obtain ⟨u, hu, hcrc'⟩ := execAll_crcBuf_crcBytes bs { s with crc := r }
    exact ⟨t, u, ht, hu, hcrc'.trans hcrc.symm, hcrc⟩
  · obtain ⟨t, ht, hcrc, -⟩ := execAll_crcInit_crcBytes bs s
    obtain ⟨u, hu, hcrc', -⟩ := execAll_crcInit_crcBytes bs { s with crc := r }
    exact ⟨t, u, ht, hu, hcrc'.trans hcrc.symm, hcrc⟩

/-- Settles O47: each command after the CRC_BUF keeps the accumulator. -/
theorem checksumIsOfTheBufferAtCrcBuf : Obligations.ChecksumIsOfTheBufferAtCrcBuf := by
  intro s after hafter
  rw [execAll_cons (exec_crcBuf rfl)]
  refine execAll_preserves (P := fun t => t.crc = checksum s.cfg.table (Memory.payload s.buf))
    (fun i hi u hu => ?_) rfl
  obtain ⟨t, ht, hcrc, -⟩ := exec_keeps_crc (hafter i hi) u
  exact ⟨t, ht, hcrc.trans hu⟩

end Sys2Proof.Claims
end

section
/-! PROOFS. Several accesses to BUF: mixed widths (20_memory.md R27), the round trip, the frame and the parts of a wide
access (41_frame_codec.md R69 to R71). -/

namespace Sys2Proof.Machine

/-! Writes and reads of the buffer -/

theorem Memory.writeBytes_append (m : Memory) (a : Nat) (bs cs : List Byte) :
    Memory.writeBytes m a (bs ++ cs) = Memory.writeBytes (Memory.writeBytes m a bs) (a + bs.length) cs := by
  induction bs generalizing m a with
  | nil => rfl
  | cons b bs ih =>
    rw [List.cons_append, Memory.writeBytes, ih, List.length_cons, Memory.writeBytes, Nat.add_assoc, Nat.add_comm 1]

/-- Writes of bytes to disjoint addresses read the same in either order. -/
theorem Memory.read_writeBytes_comm (m : Memory) {a a' : Nat} {bs bs' : List Byte}
    (h : ∀ k, ¬ (a ≤ k ∧ k < a + bs.length) ∨ ¬ (a' ≤ k ∧ k < a' + bs'.length)) (k : Nat) :
    Memory.read (Memory.writeBytes (Memory.writeBytes m a bs) a' bs') k =
      Memory.read (Memory.writeBytes (Memory.writeBytes m a' bs') a bs) k := by
  simp only [Memory.read_writeBytes]
  obtain hk | hk := h k <;> simp only [if_neg hk]

/-- Writing the bytes that are there leaves a canonical buffer as it was. -/
theorem Memory.writeBytes_self {m : Memory} {a : Nat} {bs : List Byte} (hm : Memory.wf m = true)
    (ha : a + bs.length ≤ 8) (hbs : ∀ (i : Nat) (h : i < bs.length), bs[i] = Memory.read m (a + i)) :
    Memory.writeBytes m a bs = m := by
  refine Memory.eq_of_read_eq (Memory.wf_writeBytes hm ha) hm fun k => ?_
  by_cases hk : a ≤ k ∧ k < a + bs.length
  · obtain ⟨i, rfl⟩ := Nat.exists_eq_add_of_le hk.1
    rw [Memory.read_writeBytes_inside m a (by omega), hbs]
  · rw [Memory.read_writeBytes, if_neg hk]

theorem bytesOfWord_readWord (m : Memory) (a : Nat) :
    bytesOfWord (Memory.readWord m a) =
      [Memory.read m a, Memory.read m (a + 1), Memory.read m (a + 2), Memory.read m (a + 3)] := by
  simp [bytesOfWord, Memory.readWord]

theorem bytesOfHalf_readHalf (m : Memory) (a : Nat) :
    bytesOfHalf (Memory.readHalf m a) = [Memory.read m a, Memory.read m (a + 1)] := by
  simp [bytesOfHalf, Memory.readHalf]

theorem Memory.writeBytes_readWord {m : Memory} {a : Nat} (hm : Memory.wf m = true) (ha : a + 4 ≤ 8) :
    Memory.writeBytes m a (bytesOfWord (Memory.readWord m a)) = m := by
  refine Memory.writeBytes_self hm ha fun i hi => ?_
  simp only [bytesOfWord_readWord]
  have hi : i < 4 := hi
  interval_cases i <;> rfl

theorem Memory.writeBytes_readHalf {m : Memory} {a : Nat} (hm : Memory.wf m = true) (ha : a + 2 ≤ 8) :
    Memory.writeBytes m a (bytesOfHalf (Memory.readHalf m a)) = m := by
  refine Memory.writeBytes_self hm ha fun i hi => ?_
  simp only [bytesOfHalf_readHalf]
  have hi : i < 2 := hi
  interval_cases i <;> rfl

theorem Memory.readWord_congr {m n : Memory} {a : Nat}
    (h : ∀ k, a ≤ k → k < a + 4 → Memory.read m k = Memory.read n k) : Memory.readWord m a = Memory.readWord n a := by
  rw [Memory.readWord, Memory.readWord, h a (by omega) (by omega), h (a + 1) (by omega) (by omega),
    h (a + 2) (by omega) (by omega), h (a + 3) (by omega) (by omega)]

theorem Memory.readHalf_congr {m n : Memory} {a : Nat}
    (h : ∀ k, a ≤ k → k < a + 2 → Memory.read m k = Memory.read n k) : Memory.readHalf m a = Memory.readHalf n a := by
  rw [Memory.readHalf, Memory.readHalf, h a (by omega) (by omega), h (a + 1) (by omega) (by omega)]

/-! The halves of a 32-bit value -/

/-- The bytes of a 32-bit value are those of its low half and then those of its high half. -/
theorem bytesOfWord_eq_halves (v : Word) :
    bytesOfWord v = bytesOfHalf (v.extractLsb' 0 16) ++ bytesOfHalf (v.extractLsb' 16 16) := by
  have hlow : v.extractLsb' 0 16 = halfOfBytes (v.extractLsb' 0 8) (v.extractLsb' 8 8) :=
    (BitVec.extractLsb'_append_extractLsb'_eq_extractLsb' (len₁ := 8) (start₂ := 8) rfl).symm
  have hhigh : v.extractLsb' 16 16 = halfOfBytes (v.extractLsb' 16 8) (v.extractLsb' 24 8) :=
    (BitVec.extractLsb'_append_extractLsb'_eq_extractLsb' (len₁ := 8) (start₂ := 24) rfl).symm
  simp only [hlow, hhigh, bytesOfWord, bytesOfHalf, halfOfBytes_byte0, halfOfBytes_byte1, List.cons_append,
    List.nil_append]

theorem wordOfBytes_eq_halves (b0 b1 b2 b3 : Byte) :
    wordOfBytes b0 b1 b2 b3 = halfOfBytes b2 b3 ++ halfOfBytes b0 b1 := by
  rw [wordOfBytes, halfOfBytes, halfOfBytes, BitVec.append_assoc]
  rfl

theorem Memory.readWord_eq_halves (m : Memory) (a : Nat) :
    Memory.readWord m a = Memory.readHalf m (a + 2) ++ Memory.readHalf m a :=
  wordOfBytes_eq_halves _ _ _ _

theorem off_add_toNat {off : BitVec 4} {n : Nat} (h : off.toNat + n < 16) :
    (off + BitVec.ofNat 4 n).toNat = off.toNat + n := by
  rw [BitVec.toNat_add, BitVec.toNat_ofNat]
  omega

/-! Sequences of commands -/

/-- A command, faulting or not, keeps every cell of the buffer that it does not write. -/
theorem exec_keeps_cells (i : Instr) (s : State) :
    ∃ t, exec i s = .next t ∧ ∀ k, k < 8 → writesCell i k = false → Memory.read t.buf k = Memory.read s.buf k := by
  obtain ⟨-, t, ht, ok⟩ | ⟨-, hfault⟩ := exec_cases i s
  · exact ⟨t, ht, ok.cells⟩
  · exact ⟨_, hfault, fun _ _ _ => rfl⟩

theorem execAll_append {is js : List Instr} {s t : State} (h : execAll is s = .next t) :
    execAll (is ++ js) s = execAll js t := by
  induction is generalizing s with
  | nil =>
    obtain rfl : s = t := Host.Outcome.next.inj h
    rfl
  | cons i is ih =>
    obtain ⟨u, hu, -⟩ := exec_keeps_cells i s
    rw [execAll_cons hu] at h
    rw [List.cons_append, execAll_cons hu, ih h]

/-- Commands that write no cell of a field keep it. -/
theorem execAll_keeps_field {is : List Instr} {a n : Nat} (s : State) (hn : a + n ≤ 8)
    (his : ∀ i ∈ is, ∀ k, a ≤ k → k < a + n → writesCell i k = false) :
    ∃ t, execAll is s = .next t ∧ ∀ k, a ≤ k → k < a + n → Memory.read t.buf k = Memory.read s.buf k := by
  refine execAll_preserves (P := fun t => ∀ k, a ≤ k → k < a + n → Memory.read t.buf k = Memory.read s.buf k)
    (fun i hi u hu => ?_) fun _ _ _ => rfl
  obtain ⟨t, ht, hcells⟩ := exec_keeps_cells i u
  exact ⟨t, ht, fun k hlo hhi => (hcells k (by omega) (his i hi k hlo hhi)).trans (hu k hlo hhi)⟩

theorem exec_getI32_inRange {off : BitVec 4} (s : State) (h : off.toNat + 4 ≤ 8) :
    exec (.getI32 off) s = .next (respondOk (Memory.readWord s.buf off.toNat) s) :=
  (exec_getI32 off s).trans (withAccess_inRange s _ h)

theorem exec_getI16_inRange {off : BitVec 4} (s : State) (h : off.toNat + 2 ≤ 8) :
    exec (.getI16 off) s = .next (respondOk (sextHalf (Memory.readHalf s.buf off.toNat)) s) :=
  (exec_getI16 off s).trans (withAccess_inRange s _ h)

/-- After a store and commands that do not write its field, the cells of the field still hold the bytes stored. -/
theorem StoresBytes.execAll_between {p : Instr} {a : Nat} {bs : List Byte} (hp : StoresBytes p a bs)
    {between : List Instr} (js : List Instr) (s : State)
    (hbetween : ∀ i ∈ between, ∀ k, a ≤ k → k < a + bs.length → writesCell i k = false) :
    ∃ t, execAll (p :: (between ++ js)) s = execAll js t ∧
      ∀ k, a ≤ k → k < a + bs.length → Memory.read t.buf k = Memory.read (Memory.writeBytes s.buf a bs) k := by
  rw [execAll_cons (hp.exec_eq s)]
  obtain ⟨t, ht, hcells⟩ := execAll_keeps_field _ hp.inside hbetween
  exact ⟨t, execAll_append ht, hcells⟩

/-- A PUT_I32, commands that do not write its field, and a GET_I32 there: the GET answers the value (R69). -/
theorem execAll_putI32_getI32 {off : BitVec 4} (v : Word) {between : List Instr} (s : State) (h : off.toNat + 4 ≤ 8)
    (hbetween : ∀ i ∈ between, ∀ k, off.toNat ≤ k → k < off.toNat + 4 → writesCell i k = false) :
    ∃ t, execAll (.putI32 off v :: (between ++ [.getI32 off])) s = .next (respondOk v t) := by
  obtain ⟨t, ht, hcells⟩ := (storesBytes_putI32 v h).execAll_between [.getI32 off] s hbetween
  refine ⟨t, ?_⟩
  rw [ht, execAll_cons (exec_getI32_inRange t h), Memory.readWord_congr hcells, Memory.readWord_writeWord_same, execAll]

/-- The same for PUT_I16 and GET_I16, the value sign-extended. -/
theorem execAll_putI16_getI16 {off : BitVec 4} (v : Half) {between : List Instr} (s : State) (h : off.toNat + 2 ≤ 8)
    (hbetween : ∀ i ∈ between, ∀ k, off.toNat ≤ k → k < off.toNat + 2 → writesCell i k = false) :
    ∃ t, execAll (.putI16 off v :: (between ++ [.getI16 off])) s = .next (respondOk (sextHalf v) t) := by
  obtain ⟨t, ht, hcells⟩ := (storesBytes_putI16 v h).execAll_between [.getI16 off] s hbetween
  refine ⟨t, ?_⟩
  rw [ht, execAll_cons (exec_getI16_inRange t h), Memory.readHalf_congr hcells, Memory.readHalf_writeHalf_same, execAll]

/-- A PUT in range stores bytes. -/
theorem exists_storesBytes_of_put {p : Instr} (hp : (∃ off v, p = .putI32 off v) ∨ ∃ off v, p = .putI16 off v)
    (hlegal : accessLegal p = true) : ∃ a bs, StoresBytes p a bs := by
  obtain ⟨off, v, rfl⟩ | ⟨off, v, rfl⟩ := hp
  · exact ⟨_, _, storesBytes_putI32 v ((accessLegal_iff rfl).1 hlegal)⟩
  · exact ⟨_, _, storesBytes_putI16 v ((accessLegal_iff rfl).1 hlegal)⟩

/-- Two stores leave the buffer with the bytes of the first and then those of the second written. -/
theorem StoresBytes.execAll_pair {p q : Instr} {a b : Nat} {bs cs : List Byte} (hp : StoresBytes p a bs)
    (hq : StoresBytes q b cs) (s : State) :
    ∃ t, execAll [p, q] s = .next t ∧ t.buf = Memory.writeBytes (Memory.writeBytes s.buf a bs) b cs := by
  rw [execAll_cons (hp.exec_eq s), execAll_cons (hq.exec_eq _)]
  exact ⟨_, rfl, rfl⟩

end Sys2Proof.Machine

namespace Sys2Proof.Claims

open Sys2Proof.Machine

theorem lastOk_respondOk (data : Word) (s : State) : lastOk (respondOk data s) data := by
  simp [lastOk]

/-- The data of a last OK response is determined. -/
theorem eq_of_lastOk_respondOk {data d : Word} {s : State} (h : lastOk (respondOk data s) d) : d = data := by
  simpa [lastOk, eq_comm] using h

/-- Settles O42: each read joins the bytes of the cells it covers, and a cell the later write covers holds its byte. -/
theorem mixedWidthsSeeTheSameBytes : Obligations.MixedWidthsSeeTheSameBytes := by
  rintro m _ rfl
  refine ⟨?_, ?_, ?_, ?_, ?_, fun a a' k bs bs' hlo hhi => ?_⟩
  · simp [Memory.read_writeWord]
  · simp [Memory.read_writeWord]
  · simp [Memory.readHalf, Memory.read_writeWord, halfOfBytes]
  · simp [Memory.readHalf, Memory.read_writeWord, halfOfBytes]
  · simp [Memory.readHalf, Memory.read_writeWord, halfOfBytes]
  · rw [Memory.read_writeBytes, if_pos ⟨hlo, hhi⟩, unwrittenByte]

/-- Settles O43: the commands between keep the cells of the field, and the bytes of the value read are those written. -/
theorem putThenGetReturnsTheValue : Obligations.PutThenGetReturnsTheValue := by
  refine ⟨fun off v between s h hbetween => ?_, fun off v between s h hbetween => ?_,
    fun off s t d h hwf ht hd => ?_, fun off s t d h hwf ht hd => ?_⟩
  · obtain ⟨t, ht⟩ := execAll_putI32_getI32 v s (by omega) hbetween
    exact ⟨_, ht, lastOk_respondOk v t⟩
  · obtain ⟨t, ht⟩ := execAll_putI16_getI16 v s (by omega) hbetween
    exact ⟨_, ht, lastOk_respondOk _ t⟩
  · obtain rfl := Host.Outcome.next.inj ((exec_getI32_inRange s (by omega)).symm.trans ht)
    obtain rfl := eq_of_lastOk_respondOk hd
    exact ⟨_, (storesBytes_putI32 _ (by omega)).exec_eq _, Memory.writeBytes_readWord hwf (by omega)⟩
  · obtain rfl := Host.Outcome.next.inj ((exec_getI16_inRange s (by omega)).symm.trans ht)
    obtain rfl := eq_of_lastOk_respondOk hd
    rw [sextHalf_low]
    exact ⟨_, (storesBytes_putI16 _ (by omega)).exec_eq _, Memory.writeBytes_readHalf hwf (by omega)⟩

/-- Settles O44: both PUTs store bytes, at disjoint addresses. -/
theorem disjointPutsCommute : Obligations.DisjointPutsCommute := by
  intro p q s hp hq hplegal hqlegal hdisjoint
  obtain ⟨a, bs, hp⟩ := exists_storesBytes_of_put hp hplegal
  obtain ⟨b, cs, hq⟩ := exists_storesBytes_of_put hq hqlegal
  have hcells (k : Nat) : ¬ (a ≤ k ∧ k < a + bs.length) ∨ ¬ (b ≤ k ∧ k < b + cs.length) := by
    rw [← hp.writes, ← hq.writes, Bool.not_eq_true, Bool.not_eq_true]
    exact hdisjoint k
  obtain ⟨t, ht, htbuf⟩ := hp.execAll_pair hq s
  obtain ⟨u, hu, hubuf⟩ := hq.execAll_pair hp s
  have hread (k : Nat) : Memory.read t.buf k = Memory.read u.buf k := by
    rw [htbuf, hubuf, Memory.read_writeBytes_comm s.buf hcells]
  refine ⟨⟨_, hp.exec_eq s, fun k hk => ?_⟩, t, u, ht, hu, hread, fun hwf => ?_⟩
  · rw [← Bool.not_eq_true, hp.writes] at hk
    exact (Memory.read_writeBytes s.buf a k bs).trans (if_neg hk)
  · refine Memory.eq_of_read_eq (lo := 0) ?_ ?_ hread
    · rw [htbuf]
      exact Memory.wf_writeBytes (Memory.wf_writeBytes hwf hp.inside) hq.inside
    · rw [hubuf]
      exact Memory.wf_writeBytes (Memory.wf_writeBytes hwf hq.inside) hp.inside

/-- Settles O45: the bytes of the value are those of its halves, in address order. -/
theorem wideAccessIsItsParts : Obligations.WideAccessIsItsParts := by
  have hoff (off : BitVec 4) (h : off.toNat ≤ 4) : (off + 2#4).toNat = off.toNat + 2 := off_add_toNat (by omega)
  refine ⟨fun off v s h => ?_, fun off s h => ?_⟩
  · have hoff := hoff off h
    obtain ⟨u, hu, hubuf⟩ := (storesBytes_putI16 (off := off) (v.extractLsb' 0 16) (by omega)).execAll_pair
      (storesBytes_putI16 (off := off + 2#4) (v.extractLsb' 16 16) (by omega)) s
    obtain ⟨x, hx, hxbuf⟩ := execAll_expandLoad off (bytesOfWord v) s (by simp [bytesOfWord]; omega)
    have hload : expandLoad off (bytesOfWord v) =
        [.bufWr off (v.extractLsb' 0 8), .bufWr (off + 1#4) (v.extractLsb' 8 8),
          .bufWr (off + 2#4) (v.extractLsb' 16 8), .bufWr (off + 3#4) (v.extractLsb' 24 8)] := by
      simp [bytesOfWord, expandLoad, BitVec.add_assoc]
    rw [hload] at hx
    refine ⟨_, u, x, (storesBytes_putI32 v (by omega)).exec_eq s, hu, hx, ?_, hxbuf⟩
    rw [hubuf, hoff, respondOk_buf, setBuf_buf, bytesOfWord_eq_halves, Memory.writeBytes_append]
    rfl
  · have hoff := hoff off h
    refine ⟨_, _, _, _, _, _, exec_getI32_inRange s (by omega), exec_getI16_inRange s (by omega),
      exec_getI16_inRange s (by omega), lastOk_respondOk _ s, lastOk_respondOk _ s, lastOk_respondOk _ s, ?_⟩
    rw [sextHalf_extract _ (by decide), sextHalf_extract _ (by decide), BitVec.extractLsb'_eq_self,
      BitVec.extractLsb'_eq_self, hoff, Memory.readWord_eq_halves]

end Sys2Proof.Claims
end

section
/-! PROOFS. The payloads on the wire (43_payload_formats.md): the transmit recipe (R91, R95) and the status bytes
(R90). -/

namespace Sys2Proof.Machine

/-! The transmit recipe (R95) -/

theorem execAll_keeps_cfg {is : List Instr} {s t : State} (h : execAll is s = .next t) : t.cfg = s.cfg := by
  obtain ⟨u, hu, hcfg⟩ := execAll_preserves (P := fun u => u.cfg = s.cfg) (is := is) (s := s) (fun i _ v hv => by
    obtain ⟨w, hw, -⟩ := exec_keeps_cells i v
    exact ⟨w, hw, (exec_keeps_cfg hw).trans hv⟩) rfl
  obtain rfl : u = t := Host.Outcome.next.inj (hu.symm.trans h)
  exact hcfg

theorem exec_bufRd_inRange {off : BitVec 4} (s : State) (h : off.toNat < 8) :
    exec (.bufRd off) s = .next (respondOk (zextByte (Memory.read s.buf off.toNat)) s) :=
  (exec_bufRd off s).trans (withAccess_inRange s _ h)

/-- BUF_RDs in range answer their cells in order and change nothing else. -/
theorem execAll_bufRds {offs : List (BitVec 4)} (s : State) (h : ∀ off ∈ offs, off.toNat < 8) :
    execAll (offs.map .bufRd) s = .next { s with
      responses := s.responses ++ offs.map fun off => ⟨0#2, zextByte (Memory.read s.buf off.toNat)⟩ } := by
  induction offs generalizing s with
  | nil => simp [execAll]
  | cons off offs ih =>
    obtain ⟨hoff, hoffs⟩ := List.forall_mem_cons.1 h
    rw [List.map_cons, execAll_cons (exec_bufRd_inRange s hoff), ih _ hoffs]
    simp [respondOk, respond, statusOk]

/-- The eight BUF_RDs of the recipe answer the payload. -/
theorem execAll_readAllBytes (s : State) :
    execAll readAllBytes s = .next { s with
      responses := s.responses ++ (Memory.payload s.buf).map fun b => ⟨0#2, zextByte b⟩ } :=
  execAll_bufRds (offs := [0#4, 1#4, 2#4, 3#4, 4#4, 5#4, 6#4, 7#4]) s (by decide)

/-- Every layout but Move XY is built after a BUF_CLR. -/
theorem payloadBuild_cases (p : Payload) :
    (∃ x y, p = .moveXY x y) ∨ payloadBuild p = .bufClr :: payloadPuts p := by
  cases p with
  | moveXY x y => exact .inl ⟨x, y, rfl⟩
  | home | moveZ | moveRotation | actuateAir | lightsDown | lightsUp => exact .inr rfl

end Sys2Proof.Machine

namespace Sys2Proof.Claims

open Sys2Proof.Machine

/-- BUF_CLR and the commands of any layout leave its eight bytes; those of Move XY need no BUF_CLR, and one does no
harm. -/
theorem execAll_bufClr_payloadPuts (p : Payload) (s : State) :
    ∃ t, execAll (.bufClr :: payloadPuts p) s = .next t ∧ Memory.payload t.buf = payloadBytes p ∧ t.flt = s.flt := by
  obtain ⟨x, y, rfl⟩ | hbuild := payloadBuild_cases p
  · obtain ⟨t, ht, hpayload, -, hflt⟩ := payloadBuildLeavesItsBytes (.moveXY x y) (respondOk 0#32 (setBuf [] s))
    exact ⟨t, (execAll_cons (exec_bufClr s)).trans ht, hpayload, hflt⟩
  · obtain ⟨t, ht, hpayload, -, hflt⟩ := payloadBuildLeavesItsBytes p s
    exact ⟨t, hbuild ▸ ht, hpayload, hflt⟩

/-- CRC_BUF, the eight BUF_RDs and CRC_RD answer the payload and its checksum, which stays in the accumulator. -/
theorem execAll_checksum_readOut (s : State) :
    ∃ t, execAll (.crcBuf :: (readAllBytes ++ [.crcRd])) s = .next t ∧ t.buf = s.buf ∧ t.flt = s.flt ∧
      t.crc = checksum s.cfg.table (Memory.payload s.buf) ∧
      t.responses = s.responses ++ [⟨0#2, 0#32⟩] ++ ((Memory.payload s.buf).map (fun b => ⟨0#2, b.setWidth 32⟩) ++
        [⟨0#2, (checksum s.cfg.table (Memory.payload s.buf)).setWidth 32⟩]) := by
  rw [execAll_cons (exec_crcBuf rfl), execAll_append (execAll_readAllBytes _)]
  refine ⟨_, rfl, rfl, rfl, rfl, ?_⟩
  simp [zextHalf, zextByte]

/-- Settles O49: the recipe is the layout's build and then the read-out of the buffer. -/
theorem transmitAnswersPayloadAndChecksum : Obligations.TransmitAnswersPayloadAndChecksum := by
  intro p s
  obtain ⟨t, ht, hpayload, hflt⟩ := execAll_bufClr_payloadPuts p s
  obtain ⟨u, hu, hbuf, huflt, hcrc, hresponses⟩ := execAll_checksum_readOut t
  rw [execAll_keeps_cfg ht, hpayload] at hcrc hresponses
  refine ⟨u, _, (execAll_append ht).trans hu, huflt.trans hflt, hresponses, fun sel => ?_⟩
  rw [wireBytes, hbuf, hpayload, hcrc]

/-- Settles O50: BUF_RD at the nozzle's offset reads the byte LOAD8 stored there. -/
theorem statusByteOfEachNozzle : Obligations.StatusByteOfEachNozzle := by
  intro b0 b1 b2 b3 b4 b5 b6 b7 s id
  obtain ⟨t, ht, hbuf⟩ := execAll_expandLoad 0#4 [b0, b1, b2, b3, b4, b5, b6, b7] s (by simp)
  have hload (k : Nat) (hk : k < 8) := Memory.read_writeBytes_inside s.buf 0 (bs := [b0, b1, b2, b3, b4, b5, b6, b7]) hk
  have hcell : Memory.read t.buf (statusOffset id).toNat = [b0, b1, b2, b3].getD ((nozzleId id).toNat - 1) 0x00#8 := by
    rw [hbuf]
    cases id with
    | n1 => exact hload 0 (by decide)
    | n2 => exact hload 1 (by decide)
    | n3 => exact hload 2 (by decide)
    | n4 => exact hload 3 (by decide)
  have hoff : (statusOffset id).toNat < 8 := by cases id <;> decide
  rw [readStatus, execAll_append ht, execAll_cons (exec_bufRd_inRange t hoff), hcell]
  exact ⟨_, rfl, lastOk_respondOk _ t⟩

end Sys2Proof.Claims
end

section
/-! PROOFS. The fixed-point formats (43_payload_formats.md R80 to R82, R92, R93): the ranges of the fields, and a
coordinate put and read back. -/

namespace Sys2Proof.Machine

/-! The rounding and the formats (R80 to R82, R92) -/

/-- A number between two integers is rounded between them: past an end it would move by a whole unit or more. -/
theorem Rounding.toInt_mem_Icc (rounding : Rounding) {a b : ℤ} {x : ℚ} (hlo : (a : ℚ) ≤ x) (hhi : x ≤ b) :
    a ≤ rounding.toInt x ∧ rounding.toInt x ≤ b := by
  obtain ⟨hbelow, habove⟩ := abs_le.1 (rounding.near x)
  constructor
  · have : (a : ℚ) < rounding.toInt x + 1 := by linarith
    exact Int.lt_add_one_iff.1 (by exact_mod_cast this)
  · have : (rounding.toInt x : ℚ) < b + 1 := by linarith
    exact Int.lt_add_one_iff.1 (by exact_mod_cast this)

theorem fieldZ_range (rounding : Rounding) {z : ℚ} (hz : legalZ z) :
    0 ≤ fieldZ rounding z ∧ fieldZ rounding z ≤ 12000 := by
  obtain ⟨hlo, hhi⟩ := hz
  exact rounding.toInt_mem_Icc (by push_cast; linarith) (by push_cast; linarith)

theorem fieldC_range (rounding : Rounding) {c : ℚ} (hc : legalC c) :
    -1800 ≤ fieldC rounding c ∧ fieldC rounding c ≤ 1800 := by
  obtain ⟨hlo, hhi⟩ := hc
  exact rounding.toInt_mem_Icc (by push_cast; linarith) (by push_cast; linarith)

theorem fieldZ_fitsHalf (rounding : Rounding) {z : ℚ} (hz : legalZ z) : fitsHalf (fieldZ rounding z) := by
  obtain ⟨hlo, hhi⟩ := fieldZ_range rounding hz
  exact ⟨by omega, by omega⟩

theorem fieldC_fitsHalf (rounding : Rounding) {c : ℚ} (hc : legalC c) : fitsHalf (fieldC rounding c) := by
  obtain ⟨hlo, hhi⟩ := fieldC_range rounding hc
  exact ⟨by omega, by omega⟩

/-- A value scaled, rounded and scaled back moves by at most half a unit. -/
theorem Rounding.abs_unscale_sub_le (rounding : Rounding) (x : ℚ) {k : ℚ} (hk : 0 < k) :
    |(rounding.toInt (x * k) : ℚ) / k - x| ≤ 1 / (2 * k) := by
  have hx : (rounding.toInt (x * k) : ℚ) / k - x = (rounding.toInt (x * k) - x * k) / k := by
    rw [sub_div, mul_div_cancel_right₀ x hk.ne']
  rw [hx, abs_div, abs_of_pos hk, ← div_div]
  exact div_le_div_of_nonneg_right (rounding.near _) hk.le

theorem coordXY_fieldXY_near (rounding : Rounding) (value : ℚ) :
    |coordXY (fieldXY rounding value) - value| ≤ 1 / 200 := by
  have h := rounding.abs_unscale_sub_le value (k := 100) (by norm_num)
  norm_num at h
  exact h

theorem coordZ_fieldZ_near (rounding : Rounding) (z : ℚ) : |coordZ (fieldZ rounding z) - z| ≤ 1 / 2000 := by
  have h := rounding.abs_unscale_sub_le (-z) (k := 1000) (by norm_num)
  rw [coordZ, fieldZ, ← abs_neg, neg_sub', neg_neg]
  norm_num at h ⊢
  exact h

theorem coordC_fieldC_near (rounding : Rounding) (c : ℚ) : |coordC (fieldC rounding c) - c| ≤ 1 / 20 := by
  have h := rounding.abs_unscale_sub_le c (k := 10) (by norm_num)
  norm_num at h
  exact h

/-! Fields as patterns (30_encoding.md R42) -/

theorem signedData_patternWord {f : ℤ} (h : fitsWord f) : signedData (patternWord f) = f := by
  obtain ⟨hlo, hhi⟩ := h
  exact BitVec.toInt_ofInt_eq_self (by decide) (by omega) (by omega)

theorem signedData_sextHalf_patternHalf {f : ℤ} (h : fitsHalf f) : signedData (sextHalf (patternHalf f)) = f := by
  obtain ⟨hlo, hhi⟩ := h
  rw [signedData, sextHalf_toInt]
  exact BitVec.toInt_ofInt_eq_self (by decide) (by omega) (by omega)

end Sys2Proof.Machine

namespace Sys2Proof.Claims

open Sys2Proof.Machine

/-- Settles O51: the ends of the ranges scale to integers, which rounding does not pass. -/
theorem legalRangesFitTheirFields : Obligations.LegalRangesFitTheirFields := by
  intro rounding
  refine ⟨fun z hz => ?_, fun c hc => ?_⟩
  · obtain ⟨hlo, hhi⟩ := fieldZ_range rounding hz
    exact ⟨hlo, hhi, fieldZ_fitsHalf rounding hz⟩
  · obtain ⟨hlo, hhi⟩ := fieldC_range rounding hc
    exact ⟨hlo, hhi, fieldC_fitsHalf rounding hc⟩

/-- A 16-bit field put and read back is the field, read signed. -/
theorem putI16_getI16_field {off : BitVec 4} (s : State) (h : off.toNat ≤ 6) {f : ℤ} (hf : fitsHalf f) :
    ∃ t d, execAll [.putI16 off (patternHalf f), .getI16 off] s = .next t ∧ lastOk t d ∧ signedData d = f := by
  obtain ⟨t, ht⟩ :=
    execAll_putI16_getI16 (off := off) (patternHalf f) (between := []) s (by omega) (List.forall_mem_nil _)
  exact ⟨_, _, ht, lastOk_respondOk _ t, signedData_sextHalf_patternHalf hf⟩

theorem putI32_getI32_field {off : BitVec 4} (s : State) (h : off.toNat ≤ 4) {f : ℤ} (hf : fitsWord f) :
    ∃ t d, execAll [.putI32 off (patternWord f), .getI32 off] s = .next t ∧ lastOk t d ∧ signedData d = f := by
  obtain ⟨t, ht⟩ :=
    execAll_putI32_getI32 (off := off) (patternWord f) (between := []) s (by omega) (List.forall_mem_nil _)
  exact ⟨_, _, ht, lastOk_respondOk _ t, signedData_patternWord hf⟩

/-- Settles O52: the field read back is the field put, whose coordinate is within half a unit of the one given. -/
theorem coordinatesSurviveTheRoundTrip : Obligations.CoordinatesSurviveTheRoundTrip := by
  intro rounding off s hoff
  refine ⟨fun z hz => ?_, fun c hc => ?_, fun value hoff hfits => ?_⟩
  · obtain ⟨t, d, ht, hd, hfield⟩ := putI16_getI16_field s hoff (fieldZ_fitsHalf rounding hz)
    exact ⟨t, d, ht, hd, hfield, hfield ▸ coordZ_fieldZ_near rounding z⟩
  · obtain ⟨t, d, ht, hd, hfield⟩ := putI16_getI16_field s hoff (fieldC_fitsHalf rounding hc)
    exact ⟨t, d, ht, hd, hfield, hfield ▸ coordC_fieldC_near rounding c⟩
  · obtain ⟨t, d, ht, hd, hfield⟩ := putI32_getI32_field s hoff hfits
    exact ⟨t, d, ht, hd, hfield, hfield ▸ coordXY_fieldXY_near rounding value⟩

end Sys2Proof.Claims
end
